-- ==== Sys2Proof/Word.lean ====
section
/-! DEFINITION. The widths the spec fixes (00_scope.md R6, R8; 30_encoding.md R95) and the two readings of a 64-bit
field that R100 uses. -/

namespace Sys2Proof

/-- One 8-bit value: R6, "a byte is 8 bits". -/
abbrev Byte := BitVec 8

/-- One 64-bit operand, result, cursor or counter: R6. -/
abbrev Word := BitVec 64

/-- One command word `cmd[199:0]`: R95. -/
abbrev CmdWord := BitVec 200

/-- `sint(v)`: a 64-bit pattern read as i64 (R8). -/
def sint (v : Word) : Int := v.toInt

/-- `zext_64` of one bit (R8). -/
def zextBit (b : Bool) : Word := if b then 1#64 else 0#64

end Sys2Proof
end

