-- ==== Sys2Proof/Syntax.lean ====
section
/-! DEFINITION. The commands of the two units: 30_encoding.md R100 and R101, one constructor per row of
spec/opcode_table.json. An operand R100 reads "as i64" is an Int, one it reads "as u64" as a count is a Nat, and one it
moves as a bit pattern is a bit vector. -/

namespace Sys2Proof

/-- The two units, each with a command port of its own (00_scope.md R2, 30_encoding.md R96). -/
inductive Port where
  /-- The reader unit RU. -/
  | ru
  /-- The writer unit WU. -/
  | wu
deriving DecidableEq, Repr

/-- One command with its operands as R100 reads them. A payload packet is no operand of the command word: it stands on
the writer's `wstream` (R98). -/
inductive Instr where
  /-- 0x01, R121. -/
  | rdbit
  /-- 0x02, R122. -/
  | rdbits (count : Nat)
  /-- 0x03, R123. -/
  | rdbyte
  /-- 0x04, R124. -/
  | rdbytes (count : Nat)
  /-- 0x05, R125. -/
  | rdbuf (buflen offset length : Int)
  /-- 0x06, R127. -/
  | rdb2 (bitLength : Int)
  /-- 0x07, R151. -/
  | rdfib
  /-- 0x08, R129. -/
  | rdstr
  /-- 0x11, R171. -/
  | wrbit (bit : Bool)
  /-- 0x12, R172; the bits are the payload packet's. -/
  | wrbits
  /-- 0x13, R173. -/
  | wrbyte (byte : Byte)
  /-- 0x15, R174; the buffer is the payload packet. -/
  | wrbuf (offset length : Int)
  /-- 0x16, R177. -/
  | wrb2 (value : Word) (bitLength : Int)
  /-- 0x17, R204. -/
  | wrfibu (value : Word)
  /-- 0x18, R205. -/
  | wrfibs (value : Int)
  /-- 0x19, R178; the bytes are the payload packet's. -/
  | wrstr
  /-- 0x1A, R179. -/
  | flush
  /-- 0x1B, R180. -/
  | finish
deriving DecidableEq, Repr

/-- The unit whose port takes the command: the "port" column of R101. -/
def Instr.port : Instr → Port
  | .rdbit => .ru
  | .rdbits _ => .ru
  | .rdbyte => .ru
  | .rdbytes _ => .ru
  | .rdbuf _ _ _ => .ru
  | .rdb2 _ => .ru
  | .rdfib => .ru
  | .rdstr => .ru
  | .wrbit _ => .wu
  | .wrbits => .wu
  | .wrbyte _ => .wu
  | .wrbuf _ _ => .wu
  | .wrb2 _ _ => .wu
  | .wrfibu _ => .wu
  | .wrfibs _ => .wu
  | .wrstr => .wu
  | .flush => .wu
  | .finish => .wu

/-- The three commands that consume a payload packet (R98), as data of their own: the only commands the writer can hold
accepted while it waits for a packet. -/
inductive PayloadCmd where
  | wrbits
  | wrbuf (offset length : Int)
  | wrstr
deriving DecidableEq, Repr

/-- The command a payload-carrying command is. -/
def PayloadCmd.instr : PayloadCmd → Instr
  | .wrbits => .wrbits
  | .wrbuf offset length => .wrbuf offset length
  | .wrstr => .wrstr

end Sys2Proof
end

