-- ==== Sys2Proof/WellFormed.lean ====
section
/-! DEFINITION. Which commands a 200-bit command word can carry: every operand R100 reads from a 64-bit field lies in that
field's range. -/

namespace Sys2Proof

/-- The range of a 64-bit field read as u64 (R100). -/
def fitsU64 (n : Nat) : Bool := decide (n < 2 ^ 64)

/-- The range of a 64-bit field read as i64 (R100). -/
def fitsI64 (x : Int) : Bool := decide (-2 ^ 63 ≤ x) && decide (x < 2 ^ 63)

/-- Every operand fits its field of the command word (R95, R100). -/
def Instr.wellFormed : Instr → Bool
  | .rdbit => true
  | .rdbits count => fitsU64 count
  | .rdbyte => true
  | .rdbytes count => fitsU64 count
  | .rdbuf buflen offset length => fitsI64 buflen && fitsI64 offset && fitsI64 length
  | .rdb2 bitLength => fitsI64 bitLength
  | .rdfib => true
  | .rdstr => true
  | .wrbit _ => true
  | .wrbits => true
  | .wrbyte _ => true
  | .wrbuf offset length => fitsI64 offset && fitsI64 length
  | .wrb2 _ bitLength => fitsI64 bitLength
  | .wrfibu _ => true
  | .wrfibs value => fitsI64 value
  | .wrstr => true
  | .flush => true
  | .finish => true

end Sys2Proof
end

