-- ==== Sys2Proof/Decode.lean ====
section
/-! DEFINITION. The command decoder of each port and the encoder: 30_encoding.md R95, R100 to R104. Total on every 200-bit
word: an opcode that is not assigned on the port is rejected by name. -/

namespace Sys2Proof

/-- Why a word is rejected. -/
inductive DecodeError where
  /-- R102: the opcode is not assigned on the port the word arrived on. -/
  | unassignedOpcode (port : Port) (op : Byte)
deriving DecidableEq, Repr

/-- `op = cmd[7:0]` (R95). -/
def CmdWord.op (w : CmdWord) : Byte := w.extractLsb' 0 8

/-- `arg0 = cmd[71:8]` (R95). -/
def CmdWord.arg0 (w : CmdWord) : Word := w.extractLsb' 8 64

/-- `arg1 = cmd[135:72]` (R95). -/
def CmdWord.arg1 (w : CmdWord) : Word := w.extractLsb' 72 64

/-- `arg2 = cmd[199:136]` (R95). -/
def CmdWord.arg2 (w : CmdWord) : Word := w.extractLsb' 136 64

/-- The reader port's opcodes 0x01 to 0x08 (R101) with their operands (R100); fields R100 does not list are ignored
(R103). -/
def decodeReader (w : CmdWord) : Except DecodeError Instr :=
  match (CmdWord.op w).toNat with
  | 0x01 => .ok .rdbit
  | 0x02 => .ok (.rdbits (CmdWord.arg0 w).toNat)
  | 0x03 => .ok .rdbyte
  | 0x04 => .ok (.rdbytes (CmdWord.arg0 w).toNat)
  | 0x05 => .ok (.rdbuf (sint (CmdWord.arg0 w)) (sint (CmdWord.arg1 w)) (sint (CmdWord.arg2 w)))
  | 0x06 => .ok (.rdb2 (sint (CmdWord.arg0 w)))
  | 0x07 => .ok .rdfib
  | 0x08 => .ok .rdstr
  | _ => .error (.unassignedOpcode .ru (CmdWord.op w))

/-- The writer port's opcodes 0x11 to 0x13 and 0x15 to 0x1B (R101) with their operands (R100); fields and bits R100 does
not list are ignored (R103). -/
def decodeWriter (w : CmdWord) : Except DecodeError Instr :=
  match (CmdWord.op w).toNat with
  | 0x11 => .ok (.wrbit ((CmdWord.arg0 w).getLsbD 0))
  | 0x12 => .ok .wrbits
  | 0x13 => .ok (.wrbyte ((CmdWord.arg0 w).extractLsb' 0 8))
  | 0x15 => .ok (.wrbuf (sint (CmdWord.arg0 w)) (sint (CmdWord.arg1 w)))
  | 0x16 => .ok (.wrb2 (CmdWord.arg0 w) (sint (CmdWord.arg1 w)))
  | 0x17 => .ok (.wrfibu (CmdWord.arg0 w))
  | 0x18 => .ok (.wrfibs (sint (CmdWord.arg0 w)))
  | 0x19 => .ok .wrstr
  | 0x1A => .ok .flush
  | 0x1B => .ok .finish
  | _ => .error (.unassignedOpcode .wu (CmdWord.op w))

/-- Decoding of a command word on the port it arrived on: the same `op` is decoded only on the port of its unit (R95,
R102). -/
def decode (p : Port) (w : CmdWord) : Except DecodeError Instr :=
  match p with
  | .ru => decodeReader w
  | .wu => decodeWriter w

/-- A command word from its four fields (R95): `arg2` leftmost, `op` in the low byte. -/
def assemble (op : Byte) (arg0 arg1 arg2 : Word) : CmdWord := arg2 ++ (arg1 ++ (arg0 ++ op))

/-- The word of a command, unused fields written as 0 ("Software should write 0", R103). -/
def encode : Instr → CmdWord
  | .rdbit => assemble 0x01#8 0#64 0#64 0#64
  | .rdbits count => assemble 0x02#8 (BitVec.ofNat 64 count) 0#64 0#64
  | .rdbyte => assemble 0x03#8 0#64 0#64 0#64
  | .rdbytes count => assemble 0x04#8 (BitVec.ofNat 64 count) 0#64 0#64
  | .rdbuf buflen offset length =>
      assemble 0x05#8 (BitVec.ofInt 64 buflen) (BitVec.ofInt 64 offset) (BitVec.ofInt 64 length)
  | .rdb2 bitLength => assemble 0x06#8 (BitVec.ofInt 64 bitLength) 0#64 0#64
  | .rdfib => assemble 0x07#8 0#64 0#64 0#64
  | .rdstr => assemble 0x08#8 0#64 0#64 0#64
  | .wrbit bit => assemble 0x11#8 (zextBit bit) 0#64 0#64
  | .wrbits => assemble 0x12#8 0#64 0#64 0#64
  | .wrbyte byte => assemble 0x13#8 (byte.setWidth 64) 0#64 0#64
  | .wrbuf offset length => assemble 0x15#8 (BitVec.ofInt 64 offset) (BitVec.ofInt 64 length) 0#64
  | .wrb2 value bitLength => assemble 0x16#8 value (BitVec.ofInt 64 bitLength) 0#64
  | .wrfibu value => assemble 0x17#8 value 0#64 0#64
  | .wrfibs value => assemble 0x18#8 (BitVec.ofInt 64 value) 0#64 0#64
  | .wrstr => assemble 0x19#8 0#64 0#64 0#64
  | .flush => assemble 0x1A#8 0#64 0#64 0#64
  | .finish => assemble 0x1B#8 0#64 0#64 0#64

/-- The bits of the command word a command uses: `op`, and the operand fields and bits R100 lists for it. All others are
ignored (R103). -/
def usedBits : Instr → CmdWord
  | .rdbit => BitVec.ofNat 200 (2 ^ 8 - 1)
  | .rdbits _ => BitVec.ofNat 200 (2 ^ 72 - 1)
  | .rdbyte => BitVec.ofNat 200 (2 ^ 8 - 1)
  | .rdbytes _ => BitVec.ofNat 200 (2 ^ 72 - 1)
  | .rdbuf _ _ _ => BitVec.ofNat 200 (2 ^ 200 - 1)
  | .rdb2 _ => BitVec.ofNat 200 (2 ^ 72 - 1)
  | .rdfib => BitVec.ofNat 200 (2 ^ 8 - 1)
  | .rdstr => BitVec.ofNat 200 (2 ^ 8 - 1)
  | .wrbit _ => BitVec.ofNat 200 (2 ^ 9 - 1)
  | .wrbits => BitVec.ofNat 200 (2 ^ 8 - 1)
  | .wrbyte _ => BitVec.ofNat 200 (2 ^ 16 - 1)
  | .wrbuf _ _ => BitVec.ofNat 200 (2 ^ 136 - 1)
  | .wrb2 _ _ => BitVec.ofNat 200 (2 ^ 136 - 1)
  | .wrfibu _ => BitVec.ofNat 200 (2 ^ 72 - 1)
  | .wrfibs _ => BitVec.ofNat 200 (2 ^ 72 - 1)
  | .wrstr => BitVec.ofNat 200 (2 ^ 8 - 1)
  | .flush => BitVec.ofNat 200 (2 ^ 8 - 1)
  | .finish => BitVec.ofNat 200 (2 ^ 8 - 1)

/-- The command word a row of spec/opcode_table.json gives: its low `nbits` bits, every higher bit 0. -/
def tableWord (nbits w : Nat) : CmdWord := BitVec.ofNat 200 (w % 2 ^ nbits)

/-- The port that assigns a meaning to the word's opcode; the reader's where neither does (the two opcode sets are
disjoint, R101). -/
def portOfWord (w : CmdWord) : Port :=
  match decodeWriter w with
  | .ok _ => .wu
  | .error _ => .ru

/-- The instruction the decoder reads from an opcode-table row's word, on the port that assigns its opcode. -/
def decodeTableWord (nbits w : Nat) : Option Instr :=
  match decode (portOfWord (tableWord nbits w)) (tableWord nbits w) with
  | .ok i => some i
  | .error _ => none

end Sys2Proof
end

