-- ==== Sys2Proof/Config.lean ====
section
/-! DEFINITION. What is fixed for the machine: the parameters of 92_eei_decisions.md ("OPEN parameters") at the values
this spec takes, and the one value the spec leaves without meaning, as a free value. -/

namespace Sys2Proof

/-- `CODE_W`, the width of the encoder's code register (00_scope.md R6, 10_state.md R32). -/
abbrev Config.codeWidth : Nat := 93

/-- The largest source length: `srcLen ≤ 2^64 - 1` (10_state.md R21). -/
abbrev Config.maxSrcLen : Nat := 2 ^ 64 - 1

/-- FREE VALUE: what the `n`-th status read of a unit answers while that unit executes a command. 70_reset_and_hazards.md
R272: "a read during a command returns a value of no meaning". Nothing constrains it (notes/assumptions/4.md). -/
opaque Config.statusWhileBusy : Port → Nat → Word

end Sys2Proof
end

