-- ==== Sys2Proof/Machine/State.lean ====
section
/-! DEFINITION. The state of the block, as plain data: 10_state.md R20 to R37 (the registers of the two units), 20_memory.md
R50 (the source and the sink), 30_encoding.md R96 to R99 (what stands on the ports), 60_exceptions.md R220 (the response's
status); State.reset is R40. -/

namespace Sys2Proof.Machine

/-- The source space as a sparse list of (address, byte) pairs: addresses strictly rising, no zero byte listed; an address
that is not listed reads as 0x00. -/
abbrev Memory := List Host.Cell

/-- The response's 2-bit status (R97, R220). Code 3 is never produced. -/
inductive Status where
  /-- 0. -/
  | ok
  /-- 1, the single error kind of D00. -/
  | outOfRange
  /-- 2, an opcode that is not assigned on the port. -/
  | illegalCommand
deriving DecidableEq, Repr

/-- What a unit delivers when a command completes (R97). -/
structure Response where
  status : Status
  value : Word
deriving DecidableEq, Repr

/-- The Fibonacci decoder's working registers (R31): the pair `fa`, `fb`, the accumulator `acc`, the flag `last`. -/
structure FibRegs where
  fa : Word
  fb : Word
  acc : Word
  last : Bool
deriving DecidableEq, Repr

/-- One item of the payload stream `wstream` (R98). -/
structure Item where
  data : Byte
  last : Bool
  null : Bool
deriving DecidableEq, Repr

/-- What the host does to the reader beside issuing commands. -/
inductive ReaderControl where
  /-- Reset with the source bound to these bytes and `src_len` their number (R40, R250, R252). -/
  | reset (source : List Byte)
  /-- A read of the status register of this number on the status port (R36). -/
  | readStatus (number : Nat)
deriving DecidableEq, Repr

/-- What the host does to the writer beside issuing commands and supplying payload items. -/
inductive WriterControl where
  /-- Reset (R40, R250). -/
  | reset
  /-- A read of the status register of this number on the status port (R36). -/
  | readStatus (number : Nat)
deriving DecidableEq, Repr

/-- The reader unit RU and what stands on its ports. -/
structure Reader where
  /-- The bound byte sequence (R21). -/
  source : Memory
  /-- Its length, sampled at reset (R21). -/
  srcLen : Word
  /-- Index of the byte being decoded, saturating (R22). -/
  cursor : Word
  /-- The byte at `cursor`, 0x00 past the end (R23). -/
  currentByte : Byte
  /-- The next bit of `currentByte` to read (R24). -/
  bitMask : Byte
  /-- The working registers of an RDFIB in execution (R31); none when RU is idle. -/
  fib : Option FibRegs
  /-- Control actions the host has asserted, oldest first. -/
  ctl : List ReaderControl
  /-- Command words presented on the command port, oldest first (R96). -/
  cmds : List CmdWord
  /-- Result items delivered, oldest first (R99). -/
  rstream : List Byte
  /-- Responses delivered, oldest first (R97). -/
  responses : List Response
  /-- Answers of the status port, oldest first (R36). -/
  statusOut : List Word
  /-- The MODEL's own counter of free values drawn (see Config.statusWhileBusy). -/
  draws : Nat
deriving DecidableEq, Repr

/-- The writer unit WU and what stands on its ports. -/
structure Writer where
  /-- Every byte emitted so far, append only (R26). -/
  sink : List Byte
  /-- Bits not yet forming a byte (R27). -/
  pendingByte : Byte
  /-- The next bit of `pendingByte` to set (R28). -/
  bitMask : Byte
  /-- Count of WRBIT micro-steps, wrapping (R29). -/
  position : Word
  /-- A payload-carrying command accepted while no whole packet stands on `wstream`; none when WU is idle. -/
  waiting : Option PayloadCmd
  /-- Control actions the host has asserted, oldest first. -/
  ctl : List WriterControl
  /-- Command words presented on the command port, oldest first (R96). -/
  cmds : List CmdWord
  /-- Payload items presented, oldest first (R98). -/
  wstream : List Item
  /-- Responses delivered, oldest first (R97). -/
  responses : List Response
  /-- Answers of the status port, oldest first (R36). -/
  statusOut : List Word
  /-- The MODEL's own counter of free values drawn (see Config.statusWhileBusy). -/
  draws : Nat
deriving DecidableEq, Repr

/-- The block: two units that share no state (R2, R20), and which of them the next step moves. -/
structure State where
  ru : Reader
  wu : Writer
  /-- The MODEL's own: the unit that moves next. The units share nothing, so no order between them is given (R63). -/
  turn : Port
deriving DecidableEq, Repr

/-- A step of this machine never faults: every error of the block is the status of a response and the machine goes on
(R220, R226), so the type has no constructor. -/
inductive Fault where
deriving DecidableEq, Repr

/-- Why a step has no meaning. -/
inductive Refusal where
  /-- Raised by the dispatch for an instruction without a meaning (safe). No instruction of this model is left so. -/
  | notModelled (mnemonic : String)
deriving DecidableEq, Repr

/-- RU right after reset (R40), bound to the empty source (R21: `srcLen = 0` is allowed), so `currentByte = Fetch(0) =
0x00`; nothing stands on its ports. -/
def Reader.reset : Reader :=
  { source := []
    srcLen := 0#64
    cursor := 0#64
    currentByte := 0x00#8
    bitMask := 0x80#8
    fib := none
    ctl := []
    cmds := []
    rstream := []
    responses := []
    statusOut := []
    draws := 0 }

/-- WU right after reset (R40) with nothing emitted and nothing on its ports. -/
def Writer.reset : Writer :=
  { sink := []
    pendingByte := 0x00#8
    bitMask := 0x80#8
    position := 0#64
    waiting := none
    ctl := []
    cmds := []
    wstream := []
    responses := []
    statusOut := []
    draws := 0 }

/-- The machine right after reset of both units (R40, R41). -/
def State.reset : State :=
  { ru := Reader.reset
    wu := Writer.reset
    turn := .ru }

end Sys2Proof.Machine
end

