-- ==== Sys2Proof/Machine/Ops.lean ====
section
/-! DEFINITION. The named operations over the state that every command is built from: Fetch (R52), SinkEmit (R55), the two
bit micro-steps RDBIT (R120) and WRBIT (R170) and the runs of them, completion and raise (R11, R97, R226), reset of a unit
(R40, R250) and the status port (R36, R272). -/

namespace Sys2Proof.Machine

/-! ## The source space -/

/-- The byte at an address of the source space; an address that is not listed reads as 0x00. -/
def Memory.read : Memory → Nat → Byte
  | [], _ => 0x00#8
  | (a, b) :: rest, addr => if a = addr then b else Memory.read rest addr

/-- The canonical form from an address on: addresses strictly rising from `low`, no zero byte listed. -/
def Memory.wfFrom : Nat → Memory → Bool
  | _, [] => true
  | low, (a, b) :: rest => decide (low ≤ a) && decide (b ≠ 0x00#8) && Memory.wfFrom (a + 1) rest

/-- The one canonical form of a memory's contents. -/
def Memory.wf (m : Memory) : Bool := Memory.wfFrom 0 m

/-- The memory holding a byte sequence from an address on, in canonical form: what binding a source makes of it (R21). -/
def Memory.ofBytes : Nat → List Byte → Memory
  | _, [] => []
  | addr, b :: bs =>
    if b = 0x00#8 then Memory.ofBytes (addr + 1) bs else (addr, b) :: Memory.ofBytes (addr + 1) bs

/-- `Fetch(c)` (R52): the source byte below `srcLen`, 0x00 from `srcLen` on (90_conflicts.md C1). -/
def Reader.fetch (r : Reader) (c : Word) : Byte :=
  if c < r.srcLen then Memory.read r.source c.toNat else 0x00#8

/-! ## The reader's micro-step and its runs -/

/-- `min(c + 1, 2^64 - 1)` (R22, R120). -/
def nextCursor (c : Word) : Word := if c = BitVec.allOnes 64 then c else c + 1#64

/-- RDBIT, the reader's bit micro-step (R120): the bit under `bitMask`, and the reader advanced by one bit. -/
def Reader.rdbit (r : Reader) : Bool × Reader :=
  let bit := decide (r.currentByte &&& r.bitMask ≠ 0x00#8)
  let m := r.bitMask >>> 1
  if m = 0x00#8 then
    let c := nextCursor r.cursor
    (bit, { r with cursor := c, currentByte := r.fetch c, bitMask := 0x80#8 })
  else
    (bit, { r with bitMask := m })

/-- `n` micro-steps in order: the bits they return, first bit first (R122). -/
def Reader.readBits : Nat → Reader → List Bool × Reader
  | 0, r => ([], r)
  | n + 1, r =>
    let x := r.rdbit
    let y := Reader.readBits n x.2
    (x.1 :: y.1, y.2)

/-- ReadBase2 (R126) with its 64-bit shift accumulator `v`: `v <- (v << 1) OR bit`, `n` times. -/
def Reader.shiftIn : Nat → Word → Reader → Word × Reader
  | 0, v, r => (v, r)
  | n + 1, v, r =>
    let x := r.rdbit
    Reader.shiftIn n ((v <<< 1) ||| zextBit x.1) x.2

/-- `ReadBase2(L)` (R126). -/
def Reader.readBase2 (len : Nat) (r : Reader) : Word × Reader := Reader.shiftIn len 0#64 r

/-- `ReadBase2(8)[7:0]`, one byte from the current bit position (R123). -/
def Reader.readByte (r : Reader) : Byte × Reader :=
  let x := r.readBase2 8
  (x.1.extractLsb' 0 8, x.2)

/-- `n` bytes in order (R124). -/
def Reader.readBytes : Nat → Reader → List Byte × Reader
  | 0, r => ([], r)
  | n + 1, r =>
    let x := r.readByte
    let y := Reader.readBytes n x.2
    (x.1 :: y.1, y.2)

/-- The loop of RDSTR (R129), at most `fuel` bytes: bytes up to a zero byte, which is consumed and left out. -/
def Reader.readString : Nat → Reader → List Byte × Reader
  | 0, r => ([], r)
  | fuel + 1, r =>
    let x := r.readByte
    if x.1 = 0x00#8 then ([], x.2)
    else
      let y := Reader.readString fuel x.2
      (x.1 :: y.1, y.2)

/-- Enough bytes for the loop of RDSTR to meet a zero byte from any state: R129, "at the latest the first byte that lies
wholly past the end stops it". -/
def Reader.stringFuel (r : Reader) : Nat := (r.srcLen.toNat - r.cursor.toNat) + 2

/-! ## The writer's micro-step and its runs -/

/-- `SinkEmit(b)` (R55). -/
def Writer.sinkEmit (w : Writer) (b : Byte) : Writer := { w with sink := w.sink ++ [b] }

/-- WRBIT, the writer's bit micro-step (R170). -/
def Writer.wrbit (v : Bool) (w : Writer) : Writer :=
  let p := if v then w.pendingByte ||| w.bitMask else w.pendingByte &&& ~~~w.bitMask
  let m := w.bitMask >>> 1
  if m = 0x00#8 then
    { w.sinkEmit p with pendingByte := 0x00#8, bitMask := 0x80#8, position := w.position + 1#64 }
  else
    { w with pendingByte := p, bitMask := m, position := w.position + 1#64 }

/-- Micro-steps in the order of a list of bits, first bit first. -/
def Writer.writeBits : List Bool → Writer → Writer
  | [], w => w
  | b :: bs, w => Writer.writeBits bs (w.wrbit b)

/-- `EmitBase2(value, L)` (R175): bits `L - 1` down to 0 of `value`, a bit above 63 being 0. -/
def Writer.emitBase2 (value : Word) : Nat → Writer → Writer
  | 0, w => w
  | i + 1, w => Writer.emitBase2 value i (w.wrbit (value.getLsbD i))

/-- `EmitBase2(zext_64(b), 8)` (R173). -/
def Writer.writeByte (b : Byte) (w : Writer) : Writer := Writer.emitBase2 (b.setWidth 64) 8 w

/-- Bytes in order (R174). -/
def Writer.writeBytes : List Byte → Writer → Writer
  | [], w => w
  | b :: bs, w => Writer.writeBytes bs (w.writeByte b)

/-- The loop of WRSTR (R178): bytes up to and including the first zero byte; a terminator when there is none. -/
def Writer.writeString : List Byte → Writer → Writer
  | [], w => w.writeByte 0x00#8
  | b :: bs, w => if b = 0x00#8 then w.writeByte b else Writer.writeString bs (w.writeByte b)

/-- Emission of the pending byte and the reset of byte and mask that goes with it (R179, R180). -/
def Writer.emitPending (w : Writer) : Writer :=
  { w.sinkEmit w.pendingByte with pendingByte := 0x00#8, bitMask := 0x80#8 }

/-! ## Completion and errors -/

/-- `RPush` of items in order (R99). -/
def Reader.push (items : List Byte) (r : Reader) : Reader := { r with rstream := r.rstream ++ items }

/-- `respond(status, value)` on the reader's response port (R11, R97). -/
def Reader.respond (status : Status) (value : Word) (r : Reader) : Reader :=
  { r with responses := r.responses ++ [{ status := status, value := value }] }

/-- `respond(status, value)` on the writer's response port (R11, R97). -/
def Writer.respond (status : Status) (value : Word) (w : Writer) : Writer :=
  { w with responses := w.responses ++ [{ status := status, value := value }] }

/-- The two error kinds (R220). -/
inductive ErrorKind where
  /-- Status 1: R221 to R223. -/
  | outOfRange
  /-- Status 2: R224. -/
  | illegalCommand
deriving DecidableEq, Repr

/-- The status code an error kind is delivered as (R220). -/
def ErrorKind.status : ErrorKind → Status
  | .outOfRange => .outOfRange
  | .illegalCommand => .illegalCommand

/-- `raise E` (R226), taking an exception: no change to any state of 10_state.md, nothing emitted or pushed, nothing
saved, no change of control; the response `(code of E, 0)` is the only record, and the unit is ready for its next command.
There is nothing to return from (R228). -/
def State.raise (p : Port) (e : ErrorKind) (s : State) : State :=
  match p with
  | .ru => { s with ru := s.ru.respond e.status 0#64 }
  | .wu => { s with wu := s.wu.respond e.status 0#64 }

/-- A reader command ends with status OK: the reader it leaves, its result items, then its response (R97, R99). -/
def State.completeReader (r : Reader) (items : List Byte) (value : Word) (s : State) : State :=
  { s with ru := (r.push items).respond .ok value }

/-- A writer command ends with status OK and value 0 (R97, R100). -/
def State.completeWriter (w : Writer) (s : State) : State := { s with wu := w.respond .ok 0#64 }

/-! ## Acceptance of a command -/

/-- RU is idle (R15, R96): no command in execution. -/
def Reader.idle (r : Reader) : Bool := r.fib.isNone

/-- WU is idle (R15, R96): no command in execution. -/
def Writer.idle (w : Writer) : Bool := w.waiting.isNone

/-- The word at the head of the reader's command port is taken off it (R96). -/
def State.acceptReader (rest : List CmdWord) (s : State) : State := { s with ru := { s.ru with cmds := rest } }

/-- The word at the head of the writer's command port is taken off it (R96). -/
def State.acceptWriter (rest : List CmdWord) (s : State) : State := { s with wu := { s.wu with cmds := rest } }

/-! ## Reset of a unit -/

/-- Reset of RU (R40, R250): the source bound and its length sampled, the three registers at their reset values, a command
in execution abandoned without a response; what was delivered stays delivered and what the host presents stays presented.
-/
def Reader.resetOn (bytes : List Byte) (r : Reader) : Reader :=
  let bound : Reader :=
    { r with
      source := Memory.ofBytes 0 (bytes.take Config.maxSrcLen)
      srcLen := BitVec.ofNat 64 (bytes.take Config.maxSrcLen).length
      cursor := 0#64
      bitMask := 0x80#8
      fib := none }
  { bound with currentByte := bound.fetch 0#64 }

/-- Reset of WU (R40, R250): a pending partial byte is discarded, not emitted; the sink keeps every byte; a command in
execution is abandoned without a response. -/
def Writer.resetUnit (w : Writer) : Writer :=
  { w with pendingByte := 0x00#8, bitMask := 0x80#8, position := 0#64, waiting := none }

/-! ## The status port -/

/-- The reader's status registers RD_CURSOR, RD_STATE and RD_SRCLEN; any other number reads as 0 (R36). -/
def Reader.statusRegister (r : Reader) : Nat → Word
  | 0 => r.cursor
  | 1 => (r.bitMask ++ r.currentByte).setWidth 64
  | 2 => r.srcLen
  | _ => 0#64

/-- The writer's status registers WR_POSITION and WR_STATE; any other number reads as 0 (R36). -/
def Writer.statusRegister (w : Writer) : Nat → Word
  | 0 => w.position
  | 1 => (w.bitMask ++ w.pendingByte).setWidth 64
  | _ => 0#64

/-- A read on the reader's status port: the register while the unit is idle, a value of no meaning while it executes a
command (R36, R272). -/
def Reader.readStatus (number : Nat) (r : Reader) : Reader :=
  if r.idle then { r with statusOut := r.statusOut ++ [r.statusRegister number] }
  else { r with statusOut := r.statusOut ++ [Config.statusWhileBusy .ru r.draws], draws := r.draws + 1 }

/-- A read on the writer's status port (R36, R272). -/
def Writer.readStatus (number : Nat) (w : Writer) : Writer :=
  if w.idle then { w with statusOut := w.statusOut ++ [w.statusRegister number] }
  else { w with statusOut := w.statusOut ++ [Config.statusWhileBusy .wu w.draws], draws := w.draws + 1 }

/-- The reader serves the oldest control action of its host. -/
def Reader.serve : ReaderControl → Reader → Reader
  | .reset bytes, r => r.resetOn bytes
  | .readStatus number, r => r.readStatus number

/-- The writer serves the oldest control action of its host. -/
def Writer.serve : WriterControl → Writer → Writer
  | .reset, w => w.resetUnit
  | .readStatus number, w => w.readStatus number

end Sys2Proof.Machine
end

