-- ==== Sys2Proof/Machine/Operands.lean ====
section
/-! DEFINITION. The operand forms of the commands: the range checks made before the first micro-step (R221 to R223, R227),
the window of a bulk write (R174), and the payload packet (R98). -/

namespace Sys2Proof.Machine

/-- Cause (a) (R221): `bitLength` lies in [1, 64]. -/
def bitLengthInRange (bitLength : Int) : Bool := decide (1 ≤ bitLength) && decide (bitLength ≤ 64)

/-- Cause (b) (R222, 90_conflicts.md C2): the four clauses, over unbounded integers. -/
def bulkOutOfRange (buflen offset length : Int) : Bool :=
  decide (offset < 0) || decide (offset > buflen) || decide (length < 0) || decide (offset + length > buflen)

/-- Cause (c) (R223): the operand is not positive. -/
def notPositive (value : Int) : Bool := decide (value ≤ 0)

/-- `payload[offset .. offset+length-1]` (R174). -/
def window (payload : List Byte) (offset length : Int) : List Byte :=
  (payload.drop offset.toNat).take length.toNat

/-- The data an item carries: none when `null = 1` (R98). -/
def Item.bytes (it : Item) : List Byte := if it.null then [] else [it.data]

/-- The first packet of `wstream` and what follows it: all items up to and including the first with `last = 1`, null items
skipped (R98); none while no item with `last = 1` stands there. -/
def takePacket : List Item → Option (List Byte × List Item)
  | [] => none
  | it :: rest =>
    if it.last then some (it.bytes, rest)
    else
      match takePacket rest with
      | none => none
      | some x => some (it.bytes ++ x.1, x.2)

/-- The packet of a payload in the form a host presents it: the last byte's item carries `last = 1`; the empty payload is
one item with `null = 1, last = 1` (92_eei_decisions.md D10). -/
def packetOf : List Byte → List Item
  | [] => [{ data := 0x00#8, last := true, null := true }]
  | [b] => [{ data := b, last := true, null := false }]
  | b :: bs => { data := b, last := false, null := false } :: packetOf bs

/-- A payload-carrying command consumes exactly one packet, whole, and goes on with its payload (R98); while no whole
packet stands on `wstream` the writer holds the command accepted and waits. -/
def State.withPayload (c : PayloadCmd) (effect : List Byte → State → State) (s : State) : State :=
  match takePacket s.wu.wstream with
  | none => { s with wu := { s.wu with waiting := some c } }
  | some x => effect x.1 { s with wu := { s.wu with wstream := x.2, waiting := none } }

end Sys2Proof.Machine
end

