-- ==== Sys2Proof/Machine/Flags.lean ====
section
/-! DEFINITION. The one flag of the block, the decoder's `last` (10_state.md R34, 41_fib_decoder.md R150), with the working
registers it stands among, and the codes a response reports the outcome of a command by (30_encoding.md R97). There is no
carry, zero, sign or overflow flag. -/

namespace Sys2Proof.Machine

/-- The start of every RDFIB: `fa <- 0; fb <- 1; acc <- 0; last <- false` (R150, R156). -/
def FibRegs.init : FibRegs := { fa := 0#64, fb := 1#64, acc := 0#64, last := false }

/-- The bit is the terminator: a 1 met with `last` set (R150, R88). -/
def FibRegs.terminatedBy (bit : Bool) (f : FibRegs) : Bool := bit && f.last

/-- One iteration on a bit that is not the terminator: a 1 adds the weight `fa + fb` and sets `last`, a 0 clears it; the
pair advances; all additions modulo 2^64 (R150, R153). -/
def FibRegs.advance (bit : Bool) (f : FibRegs) : FibRegs :=
  { fa := f.fb
    fb := f.fa + f.fb
    acc := if bit then f.acc + (f.fa + f.fb) else f.acc
    last := bit }

/-- The 2-bit code of a status (R97, R220). -/
def Status.code : Status → BitVec 2
  | .ok => 0#2
  | .outOfRange => 1#2
  | .illegalCommand => 2#2

/-- The response as it stands on the port, `(status[1:0], value[63:0])`, status most significant (R97). -/
def Response.word (r : Response) : BitVec 66 := r.status.code ++ r.value

end Sys2Proof.Machine
end

