-- ==== Sys2Proof/Machine/BitReader.lean ====
section
/-! DEFINITION. The bit-buffer reader's commands: 40_bit_reader.md R121 to R129. -/

namespace Sys2Proof.Machine

/-- RDBIT (R121). -/
def execRdbit (s : State) : Host.Outcome State Fault Refusal :=
  let x := s.ru.rdbit
  .next (s.completeReader x.2 [] (zextBit x.1))

/-- RDBITS (R122): each bit an item 0x00 or 0x01. -/
def execRdbits (count : Nat) (s : State) : Host.Outcome State Fault Refusal :=
  let x := s.ru.readBits count
  .next (s.completeReader x.2 (x.1.map fun b => if b then 0x01#8 else 0x00#8) (BitVec.ofNat 64 count))

/-- RDBYTE (R123). -/
def execRdbyte (s : State) : Host.Outcome State Fault Refusal :=
  let x := s.ru.readByte
  .next (s.completeReader x.2 [] (x.1.setWidth 64))

/-- RDBYTES (R124). -/
def execRdbytes (count : Nat) (s : State) : Host.Outcome State Fault Refusal :=
  let x := s.ru.readBytes count
  .next (s.completeReader x.2 x.1 (BitVec.ofNat 64 count))

/-- RDBUF (R125): the descriptor checked before any bit is read. -/
def execRdbuf (buflen offset length : Int) (s : State) : Host.Outcome State Fault Refusal :=
  if bulkOutOfRange buflen offset length then .next (s.raise .ru .outOfRange)
  else
    let x := s.ru.readBytes length.toNat
    .next (s.completeReader x.2 x.1 (BitVec.ofInt 64 length))

/-- RDB2 (R127): the length checked before any bit is read. -/
def execRdb2 (bitLength : Int) (s : State) : Host.Outcome State Fault Refusal :=
  if bitLengthInRange bitLength then
    let x := s.ru.readBase2 bitLength.toNat
    .next (s.completeReader x.2 [] x.1)
  else .next (s.raise .ru .outOfRange)

/-- RDSTR (R129): the bytes before the zero byte, and their number. -/
def execRdstr (s : State) : Host.Outcome State Fault Refusal :=
  let x := s.ru.readString s.ru.stringFuel
  .next (s.completeReader x.2 x.1 (BitVec.ofNat 64 x.1.length))

end Sys2Proof.Machine
end

