-- ==== Sys2Proof/Machine/FibDecoder.lean ====
section
/-! DEFINITION. The Fibonacci decoder: 41_fib_decoder.md R150 to R158. A run of RDFIB that meets its terminator is one
atomic transition (92_eei_decisions.md D1). One that never meets it is an infinite execution (R155): the reader stays busy,
and each later turn of the reader is one more iteration of the loop. -/

namespace Sys2Proof.Machine

/-- FibDecode (R150), at most `fuel` iterations: the accumulator and the reader when the terminator is met. -/
def Reader.fibDecode : Nat → FibRegs → Reader → Option (Word × Reader)
  | 0, _, _ => none
  | fuel + 1, f, r =>
    let x := r.rdbit
    if f.terminatedBy x.1 then some (f.acc, x.2) else Reader.fibDecode fuel (f.advance x.1) x.2

/-- The bits from the current position that can be other than 0: no terminator lies beyond them (R152, R155). -/
def Reader.fibFuel (r : Reader) : Nat := 8 * (r.srcLen.toNat - r.cursor.toNat) + 8

/-- RDFIB (R151): the accumulated value when the terminator is ahead; otherwise RU enters the loop of R150 and stays in it
(R155): no value, no error, no response. -/
def execRdfib (s : State) : Host.Outcome State Fault Refusal :=
  match s.ru.fibDecode s.ru.fibFuel FibRegs.init with
  | some x => .next (s.completeReader x.2 [] x.1)
  | none => .next { s with ru := { s.ru with fib := some FibRegs.init } }

/-- One iteration of the loop of R150 in a reader whose RDFIB is in execution. -/
def State.continueFib (f : FibRegs) (s : State) : State :=
  let x := s.ru.rdbit
  if f.terminatedBy x.1 then s.completeReader { x.2 with fib := none } [] f.acc
  else { s with ru := { x.2 with fib := some (f.advance x.1) } }

end Sys2Proof.Machine
end

