-- ==== Sys2Proof/Machine/BitWriter.lean ====
section
/-! DEFINITION. The bit-buffer writer's commands: 42_bit_writer.md R171 to R180. -/

namespace Sys2Proof.Machine

/-- WRBIT (R171). -/
def execWrbit (bit : Bool) (s : State) : Host.Outcome State Fault Refusal :=
  .next (s.completeWriter (s.wu.wrbit bit))

/-- WRBITS (R172): `data[0]` of each payload item. -/
def execWrbits (s : State) : Host.Outcome State Fault Refusal :=
  .next (s.withPayload .wrbits fun payload t =>
    t.completeWriter (t.wu.writeBits (payload.map fun b => b.getLsbD 0)))

/-- WRBYTE (R173). -/
def execWrbyte (byte : Byte) (s : State) : Host.Outcome State Fault Refusal :=
  .next (s.completeWriter (s.wu.writeByte byte))

/-- WRBUF (R174): the packet is consumed whole in every case; the descriptor is checked before any bit is written. -/
def execWrbuf (offset length : Int) (s : State) : Host.Outcome State Fault Refusal :=
  .next (s.withPayload (.wrbuf offset length) fun payload t =>
    if bulkOutOfRange payload.length offset length then t.raise .wu .outOfRange
    else t.completeWriter (t.wu.writeBytes (window payload offset length)))

/-- WRB2 (R177): no check of any kind; nothing is written when `bitLength ≤ 0`. -/
def execWrb2 (value : Word) (bitLength : Int) (s : State) : Host.Outcome State Fault Refusal :=
  .next (s.completeWriter (s.wu.emitBase2 value bitLength.toNat))

/-- WRSTR (R178). -/
def execWrstr (s : State) : Host.Outcome State Fault Refusal :=
  .next (s.withPayload .wrstr fun payload t => t.completeWriter (t.wu.writeString payload))

/-- FLUSH (R179): the pending byte is emitted regardless of fill state; `position` unchanged. -/
def execFlush (s : State) : Host.Outcome State Fault Refusal :=
  .next (s.completeWriter s.wu.emitPending)

/-- FINISH (R180): the pending byte is emitted only when bits are pending. -/
def execFinish (s : State) : Host.Outcome State Fault Refusal :=
  .next (s.completeWriter (if s.wu.bitMask = 0x80#8 then s.wu else s.wu.emitPending))

end Sys2Proof.Machine
end

