-- ==== Sys2Proof/Machine/FibEncoder.lean ====
section
/-! DEFINITION. The Fibonacci encoder: 43_fib_encoder.md R200 to R207. The emitted bit sequence is normative (R201) and is
what the commands write; the reference loop (R203) stands beside it over the working registers of R32. -/

namespace Sys2Proof.Machine

/-- The number `n` of the Fibonacci numbers F(2), F(3), … that are at most `v` (R201); for a 64-bit `v` none beyond F(93)
is, so 92 indices are looked at. -/
def fibCount (v : Nat) : Nat := ((List.range 92).filter fun j => decide (Nat.fib (j + 2) ≤ v)).length

/-- The greedy walk from index `i - 1` down to 0 on the remainder `r` (R201): the data bits `c_0 … c_(i-1)`. -/
def fibWalk : Nat → Nat → List Bool
  | 0, _ => []
  | i + 1, r =>
    if Nat.fib (i + 2) ≤ r then fibWalk i (r - Nat.fib (i + 2)) ++ [true] else fibWalk i r ++ [false]

/-- `FibCode(v)` (R201): the data bits, then the terminator. -/
def fibCode (v : Nat) : List Bool := fibWalk (fibCount v) v ++ [true]

/-- WRFIBU (R204): every operand is encoded, 0 as the single bit 1 (R206). -/
def execWrfibu (value : Word) (s : State) : Host.Outcome State Fault Refusal :=
  .next (s.completeWriter (s.wu.writeBits (fibCode value.toNat)))

/-- WRFIBS (R205): positivity checked before any bit is written. -/
def execWrfibs (value : Int) (s : State) : Host.Outcome State Fault Refusal :=
  if notPositive value then .next (s.raise .wu .outOfRange)
  else .next (s.completeWriter (s.wu.writeBits (fibCode value.toNat)))

/-! ## The reference loop -/

/-- The encoder's working registers (R32). -/
structure EncRegs where
  ea : Word
  eb : Word
  n : Nat
  code : BitVec Config.codeWidth
  rem : Word
deriving DecidableEq, Repr

/-- The search phase (R203), at most `fuel` steps: the comparison on the 65-bit sum (R207). -/
def EncRegs.search (value : Word) : Nat → EncRegs → EncRegs
  | 0, e => e
  | fuel + 1, e =>
    if e.ea.setWidth 65 + e.eb.setWidth 65 ≤ value.setWidth 65 then
      EncRegs.search value fuel { e with ea := e.eb, eb := e.ea + e.eb, n := e.n + 1 }
    else e

/-- The walk phase (R203) from index `i - 1` down to 0. -/
def EncRegs.walk : Nat → EncRegs → EncRegs
  | 0, e => e
  | i + 1, e =>
    if e.eb ≤ e.rem then
      EncRegs.walk i
        { e with
          code := e.code ||| (1#Config.codeWidth <<< i)
          rem := e.rem - e.eb
          ea := e.eb - e.ea
          eb := e.ea }
    else EncRegs.walk i { e with ea := e.eb - e.ea, eb := e.ea }

/-- FibEncode's bits in emission order (R203): `code[0]` up to `code[n]`. -/
def fibEncodeLoop (value : Word) : List Bool :=
  let e := EncRegs.search value Config.codeWidth { ea := 0#64, eb := 1#64, n := 0, code := 0, rem := value }
  let w := EncRegs.walk e.n { e with code := 1#Config.codeWidth <<< e.n }
  (List.range (e.n + 1)).map fun i => w.code.getLsbD i

end Sys2Proof.Machine
end

