-- ==== Sys2Proof/Machine/Dispatch.lean ====
section
/-! DEFINITION. One arm per command: the meaning of each. -/

namespace Sys2Proof.Machine

def exec (i : Instr) (s : State) : Host.Outcome State Fault Refusal :=
  match i with
  -- 40_bit_reader.md
  | .rdbit => Sys2Proof.Machine.execRdbit s
  | .rdbits count => Sys2Proof.Machine.execRdbits count s
  | .rdbyte => Sys2Proof.Machine.execRdbyte s
  | .rdbytes count => Sys2Proof.Machine.execRdbytes count s
  | .rdbuf buflen offset length => Sys2Proof.Machine.execRdbuf buflen offset length s
  | .rdb2 bitLength => Sys2Proof.Machine.execRdb2 bitLength s
  | .rdstr => Sys2Proof.Machine.execRdstr s
  -- 41_fib_decoder.md
  | .rdfib => Sys2Proof.Machine.execRdfib s
  -- 42_bit_writer.md
  | .wrbit bit => Sys2Proof.Machine.execWrbit bit s
  | .wrbits => Sys2Proof.Machine.execWrbits s
  | .wrbyte byte => Sys2Proof.Machine.execWrbyte byte s
  | .wrbuf offset length => Sys2Proof.Machine.execWrbuf offset length s
  | .wrb2 value bitLength => Sys2Proof.Machine.execWrb2 value bitLength s
  | .wrstr => Sys2Proof.Machine.execWrstr s
  | .flush => Sys2Proof.Machine.execFlush s
  | .finish => Sys2Proof.Machine.execFinish s
  -- 43_fib_encoder.md
  | .wrfibu value => Sys2Proof.Machine.execWrfibu value s
  | .wrfibs value => Sys2Proof.Machine.execWrfibs value s

end Sys2Proof.Machine
end

