-- ==== Sys2Proof/Machine/Step.lean ====
section
/-! DEFINITION. One step: the unit whose turn it is moves once, and the turn passes to the other. -/

namespace Sys2Proof.Machine

/-- RU's move. Its host's control actions come first (a reset ends even a hang, R40); a busy RU goes on with its RDFIB and
takes no command (R96, R155); an idle RU accepts the oldest command presented and executes it, or raises IllegalCommand
where the port assigns its opcode no meaning (R102, R224); with nothing presented it waits (R251). -/
def stepReader (s : State) : Host.Outcome State Fault Refusal :=
  match s.ru.ctl with
  | c :: rest => .next { s with ru := Reader.serve c { s.ru with ctl := rest } }
  | [] =>
    match s.ru.fib with
    | some f => .next (s.continueFib f)
    | none =>
      match s.ru.cmds with
      | [] => .next s
      | w :: rest =>
        match decode .ru w with
        | .ok i => exec i (s.acceptReader rest)
        | .error _ => .next ((s.acceptReader rest).raise .ru .illegalCommand)

/-- WU's move, in the same order; a busy WU goes on with the command that waits for its payload packet (R98). -/
def stepWriter (s : State) : Host.Outcome State Fault Refusal :=
  match s.wu.ctl with
  | c :: rest => .next { s with wu := Writer.serve c { s.wu with ctl := rest } }
  | [] =>
    match s.wu.waiting with
    | some c => exec c.instr s
    | none =>
      match s.wu.cmds with
      | [] => .next s
      | w :: rest =>
        match decode .wu w with
        | .ok i => exec i (s.acceptWriter rest)
        | .error _ => .next ((s.acceptWriter rest).raise .wu .illegalCommand)

/-- One step of the machine (R63: no order between the units is given, see notes/assumptions/2.md). -/
def step (s : State) : Host.Outcome State Fault Refusal :=
  match s.turn with
  | .ru => stepReader { s with turn := .wu }
  | .wu => stepWriter { s with turn := .ru }

/-- The machine `s` with a command word presented so that the very next step accepts and runs it: it heads the command
port of the unit that assigns its opcode, that unit is idle with no control action ahead and moves next, and, for the
writer, a payload packet stands on `wstream` (the empty packet closes it where no whole packet does). -/
def State.withFetchWord (s : State) (nbits w : Nat) : State :=
  match portOfWord (tableWord nbits w) with
  | .ru =>
    { s with
      ru := { s.ru with ctl := [], fib := none, cmds := tableWord nbits w :: s.ru.cmds }
      turn := .ru }
  | .wu =>
    { s with
      wu :=
        { s.wu with
          ctl := []
          waiting := none
          cmds := tableWord nbits w :: s.wu.cmds
          wstream :=
            match takePacket s.wu.wstream with
            | some _ => s.wu.wstream
            | none => s.wu.wstream ++ packetOf [] }
      turn := .wu }

end Sys2Proof.Machine
end

