-- ==== Sys2Proof/Machine/Stream.lean ====
section
/-! DEFINITION. The data stream (30_encoding.md Part A, 00_scope.md R7): which bits each kind of field is, where a bit lies
in the bytes, and the views of the two units as a position in the stream (10_state.md R25, R28, 20_memory.md R66, R67). The
commands do not call these; statements compare the commands with them. -/

namespace Sys2Proof.Machine

/-! ## Bits and bytes -/

/-- The stream bits of one byte: bit 7 (0x80) first (R7, R57). -/
def byteBits (b : Byte) : List Bool := (List.range 8).map fun j => b.getLsbD (7 - j)

/-- The stream bits of a byte sequence: stream bit `k` is bit `7 - (k mod 8)` of byte `k div 8` (R7). -/
def bytesBits (bs : List Byte) : List Bool := bs.flatMap byteBits

/-- The byte of at most 8 stream bits, first bit most significant, the missing ones 0 (R57, R90). -/
def packByte : Nat → List Bool → Byte
  | _, [] => 0x00#8
  | 0, _ :: _ => 0x00#8
  | j + 1, b :: bs => (if b then 1#8 <<< j else 0x00#8) ||| packByte j bs

/-- The whole bytes of a bit string, in order (R66). -/
def packBytes : List Bool → List Byte
  | a :: b :: c :: d :: e :: f :: g :: h :: rest => packByte 8 [a, b, c, d, e, f, g, h] :: packBytes rest
  | _ => []

/-- The bits after the last whole byte of a bit string. -/
def partialBits (bits : List Bool) : List Bool := bits.drop (8 * (bits.length / 8))

/-- The number of bits above the one-hot mask: `idx` of R25. -/
def maskIndex (m : Byte) : Nat :=
  if m = 0x80#8 then 0
  else if m = 0x40#8 then 1
  else if m = 0x20#8 then 2
  else if m = 0x10#8 then 3
  else if m = 0x08#8 then 4
  else if m = 0x04#8 then 5
  else if m = 0x02#8 then 6
  else 7

/-- The value of a bit string, first bit most significant (R83). -/
def bitsValue (bits : List Bool) : Nat := bits.foldl (fun v b => 2 * v + b.toNat) 0

/-! ## Fields -/

/-- A base2 integer of `len` bits: value bit `len - 1` first (R83); a bit above 63 is 0 (R175). -/
def base2Bits (len : Nat) (value : Word) : List Bool := (List.range len).map fun j => value.getLsbD (len - 1 - j)

/-- A string: its bytes, then exactly one zero byte (R85). -/
def stringBits (bs : List Byte) : List Bool := bytesBits bs ++ byteBits 0x00#8

/-- The bytes of a string operand that reach the stream: those before its first zero byte (R178). -/
def untilZero (bs : List Byte) : List Byte := bs.takeWhile fun b => b ≠ 0x00#8

/-- The six kinds of field (R80). -/
inductive Field where
  /-- R81. -/
  | bit (b : Bool)
  /-- R82. -/
  | bits (bs : List Bool)
  /-- R83. -/
  | base2 (len : Nat) (value : Word)
  /-- R84, one byte. -/
  | byte (b : Byte)
  /-- R84, a byte run. -/
  | bytes (bs : List Byte)
  /-- R85. -/
  | string (bs : List Byte)
  /-- R86. -/
  | fib (value : Word)
deriving DecidableEq, Repr

/-- What a field must meet to be one of R81 to R86: a base2 value fits its length in [1, 64], a string holds no zero byte,
a Fibonacci-coded value is at least 1. -/
def Field.wellFormed : Field → Bool
  | .bit _ => true
  | .bits _ => true
  | .base2 len value => decide (1 ≤ len) && decide (len ≤ 64) && decide (value.toNat < 2 ^ len)
  | .byte _ => true
  | .bytes _ => true
  | .string bs => bs.all fun b => b ≠ 0x00#8
  | .fib value => decide (value ≠ 0#64)

/-- The stream bits of a field (R81 to R86). -/
def Field.stream : Field → List Bool
  | .bit b => [b]
  | .bits bs => bs
  | .base2 len value => base2Bits len value
  | .byte b => byteBits b
  | .bytes bs => bytesBits bs
  | .string bs => stringBits bs
  | .fib value => fibCode value.toNat

/-- The command that writes a field (R81 to R86). -/
def Field.writeCommand : Field → Instr
  | .bit b => .wrbit b
  | .bits _ => .wrbits
  | .base2 len value => .wrb2 value len
  | .byte b => .wrbyte b
  | .bytes bs => .wrbuf 0 bs.length
  | .string _ => .wrstr
  | .fib value => .wrfibu value

/-- The items that command takes from `wstream` (R98). -/
def Field.packet : Field → List Item
  | .bit _ => []
  | .bits bs => packetOf (bs.map fun b => if b then 0x01#8 else 0x00#8)
  | .base2 _ _ => []
  | .byte _ => []
  | .bytes bs => packetOf bs
  | .string bs => packetOf bs
  | .fib _ => []

/-- The command that reads a field of that kind and length (R81 to R86, R265). -/
def Field.readCommand : Field → Instr
  | .bit _ => .rdbit
  | .bits bs => .rdbits bs.length
  | .base2 len _ => .rdb2 len
  | .byte _ => .rdbyte
  | .bytes bs => .rdbytes bs.length
  | .string _ => .rdstr
  | .fib _ => .rdfib

/-- The response value of that read (R100). -/
def Field.readValue : Field → Word
  | .bit b => zextBit b
  | .bits bs => BitVec.ofNat 64 bs.length
  | .base2 _ value => value
  | .byte b => b.setWidth 64
  | .bytes bs => BitVec.ofNat 64 bs.length
  | .string bs => BitVec.ofNat 64 bs.length
  | .fib value => value

/-- The result items of that read (R99, R100). -/
def Field.readItems : Field → List Byte
  | .bit _ => []
  | .bits bs => bs.map fun b => if b then 0x01#8 else 0x00#8
  | .base2 _ _ => []
  | .byte _ => []
  | .bytes bs => bs
  | .string bs => bs
  | .fib _ => []

/-! ## The reader in the stream -/

/-- The one-hot masks of an idle unit (R24, R28). -/
def oneHot (m : Byte) : Bool :=
  [0x80#8, 0x40#8, 0x20#8, 0x10#8, 0x08#8, 0x04#8, 0x02#8, 0x01#8].contains m

/-- The reader's stream position (R25). -/
def Reader.bitpos (r : Reader) : Nat := 8 * r.cursor.toNat + maskIndex r.bitMask

/-- Stream bit `k` of the bound source, 0 from `8 × srcLen` on (R7, R67). -/
def Reader.streamBit (r : Reader) (k : Nat) : Bool :=
  if k / 8 < r.srcLen.toNat then (Memory.read r.source (k / 8)).getLsbD (7 - k % 8) else false

/-- The `n` stream bits from position `k` on. -/
def Reader.streamBits (r : Reader) (k n : Nat) : List Bool := (List.range n).map fun j => r.streamBit (k + j)

/-- The byte whose 8 bits start at position `k` (R84). -/
def Reader.streamByte (r : Reader) (k : Nat) : Byte := packByte 8 (r.streamBits k 8)

/-- The reader after `n` more micro-steps (R67), the cursor saturating (R22). -/
def Reader.advance (n : Nat) (r : Reader) : Reader :=
  let p := maskIndex r.bitMask + n
  let c := BitVec.ofNat 64 (min (r.cursor.toNat + p / 8) (2 ^ 64 - 1))
  { r with cursor := c, currentByte := r.fetch c, bitMask := 0x80#8 >>> (p % 8) }

/-- Two adjacent 1 bits end at index `t` from position `k` on (R152). -/
def Reader.pairAt (r : Reader) (k t : Nat) : Bool := decide (1 ≤ t) && r.streamBit (k + t - 1) && r.streamBit (k + t)

/-- The sum of the weights `F(i + 2)` of the 1 bits of a bit string (R13, R86, R152). -/
def fibSum : Nat → List Bool → Nat
  | _, [] => 0
  | i, b :: bs => (if b then Nat.fib (i + 2) else 0) + fibSum (i + 1) bs

/-! ## The writer in the stream -/

/-- The bits pending in `pendingByte`: the `idx(bitMask)` bits above the mask (R28). -/
def Writer.pendingBits (w : Writer) : List Bool := (byteBits w.pendingByte).take (maskIndex w.bitMask)

/-- The writer after micro-steps with these bits (R66, R182): whole bytes emitted, the rest pending, each bit counted. -/
def Writer.append (bits : List Bool) (w : Writer) : Writer :=
  let all := w.pendingBits ++ bits
  { w with
    sink := w.sink ++ packBytes all
    pendingByte := packByte 8 (partialBits all)
    bitMask := 0x80#8 >>> (all.length % 8)
    position := w.position + BitVec.ofNat 64 bits.length }

/-! ## Runs of commands -/

/-- Commands executed one after another, each to completion (R63, R96). -/
def execAll : List Instr → State → Host.Outcome State Fault Refusal
  | [], s => .next s
  | i :: rest, s =>
    match exec i s with
    | .next t => execAll rest t
    | .fault e => .fault e
    | .refused e => .refused e

end Sys2Proof.Machine
end

