-- ==== Sys2Proof/Safety.lean ====
section
/-! DEFINITION. The invariants of the two units (10_state.md R23 to R25, R27, R28, R30), the end of a run
(70_reset_and_hazards.md R254), and the obligations on the host that the block does not check (R261 to R271). -/

namespace Sys2Proof.Machine

/-! ## Invariants -/

/-- What holds of RU at every micro-step boundary: one bit of `currentByte` is addressed (R24, R25), `currentByte =
Fetch(cursor)` (R23), and the source is in its one form, with no byte at or past `srcLen` (R21). -/
abbrev Reader.Ok (r : Reader) : Prop :=
  oneHot r.bitMask = true ∧ r.currentByte = r.fetch r.cursor ∧ Memory.wf r.source = true ∧
    (r.source.all fun cell => decide (cell.1 < r.srcLen.toNat)) = true

/-- What holds of WU at every micro-step boundary: the mask is one-hot (R28), and `pendingByte` is 0 at the mask and below
(R27, R30). -/
abbrev Writer.Ok (w : Writer) : Prop :=
  oneHot w.bitMask = true ∧ w.pendingByte &&& (w.bitMask ||| (w.bitMask - 1#8)) = 0x00#8

/-- The invariant of the block. -/
abbrev State.Ok (s : State) : Prop := s.ru.Ok ∧ s.wu.Ok

/-! ## The end of a run (R254) -/

/-- FINISH or FLUSH: the commands a complete WU run may end in. -/
def endsWriterRun (w : CmdWord) : Bool := decide (decode .wu w = .ok .finish) || decide (decode .wu w = .ok .flush)

/-- A WU run in which these words were issued, from one writer to another, is complete: the last of them is FINISH or
FLUSH, and it has responded, as has every word before it (R254). What the mask shows does not count: a run that happens to
stop on a byte boundary is not complete, nor is one whose last command a reset abandoned. A run lies within one pass, so
between two resets (R253). -/
def Writer.complete (issued : List CmdWord) (first last : Writer) : Bool :=
  (issued.getLast?.any endsWriterRun) && last.cmds.isEmpty && last.idle &&
    decide (last.responses.length = first.responses.length + issued.length)

/-- An RU run is complete: every command issued has responded. A run in a hanging RDFIB never is. -/
def Reader.complete (r : Reader) : Bool := r.cmds.isEmpty && r.idle

/-! ## Hazards -/

/-- The host's obligations at a command: RDFIB has a terminator ahead (R264), WRFIBU does not write 0 (R266), a WRB2 value
fits a length in [1, 64] (R267), a WRSTR payload holds no zero byte (R268), FLUSH has bits to flush (R263), and a command
that takes no packet has none presented with it (R271). -/
def hazardFree (i : Instr) (s : State) : Bool :=
  match i with
  | .rdbit => true
  | .rdbits _ => true
  | .rdbyte => true
  | .rdbytes _ => true
  | .rdbuf _ _ _ => true
  | .rdb2 _ => true
  | .rdfib => (s.ru.fibDecode s.ru.fibFuel FibRegs.init).isSome
  | .rdstr => true
  | .wrbit _ => s.wu.wstream.isEmpty
  | .wrbits => true
  | .wrbyte _ => s.wu.wstream.isEmpty
  | .wrbuf _ _ => true
  | .wrb2 value bitLength =>
    s.wu.wstream.isEmpty && decide (1 ≤ bitLength) && decide (bitLength ≤ 64) &&
      decide (value.toNat < 2 ^ bitLength.toNat)
  | .wrfibu value => s.wu.wstream.isEmpty && decide (value ≠ 0#64)
  | .wrfibs _ => s.wu.wstream.isEmpty
  | .wrstr =>
    match takePacket s.wu.wstream with
    | none => true
    | some x => x.1.all fun b => b ≠ 0x00#8
  | .flush => s.wu.wstream.isEmpty && decide (s.wu.bitMask ≠ 0x80#8)
  | .finish => s.wu.wstream.isEmpty

end Sys2Proof.Machine
end

