-- ==== Sys2Proof/Certificates/Slice0/Obligations.lean ====
section
/-! DEFINITION. The statements for the provers, from the spec's numbered rules. Expected results are said in the views of
Machine/Stream.lean: stream bits, `advance` (the reader some bits further) and `append` (the writer some bits further). -/

open Sys2Proof Sys2Proof.Machine

/-! ## Encoding (30_encoding.md Part B) -/

/-- R95, R100, R101: no bit of an operand is lost between the encoder and the decoder of the command's port. -/
def Obligations.DecodeInvertsEncode : Prop :=
  ∀ i : Instr, i.wellFormed = true → decode i.port (encode i) = .ok i

/-- R95, R101: words written out in 95_test_vectors.md (arg2 leftmost, op the last two digits) decode to the commands they
stand for there. -/
def Obligations.DecodedWordsOfTheVectors : Prop :=
  decode .ru 0x00000000000000000000000000000000000000000000000001#200 = .ok .rdbit ∧
  decode .ru 0x00000000000000000000000000000000000000000000000A02#200 = .ok (.rdbits 10) ∧
  decode .ru 0x00000000000000030000000000000002000000000000000405#200 = .ok (.rdbuf 4 2 3) ∧
  decode .ru 0x00000000000000000000000000000000FFFFFFFFFFFFFFFF06#200 = .ok (.rdb2 (-1)) ∧
  decode .ru 0x00000000000000000000000000000000000000000000000007#200 = .ok .rdfib ∧
  decode .wu 0x0000000000000000000000000000000000000000000000AB13#200 = .ok (.wrbyte 0xAB#8) ∧
  decode .wu 0x00000000000000000000000000000008000000000000002016#200 = .ok (.wrb2 32#64 8) ∧
  decode .wu 0x00000000000000000000000000000000800000000000000018#200 = .ok (.wrfibs (-9223372036854775808)) ∧
  decode .wu 0x0000000000000000000000000000000000000000000000001B#200 = .ok .finish

/-- R102: which opcodes a port assigns, and that any other is rejected by name. -/
def Obligations.DecodeAcceptsExactlyTheAssignedOpcodes : Prop :=
  (∀ w : CmdWord,
    ((1 ≤ (CmdWord.op w).toNat ∧ (CmdWord.op w).toNat ≤ 8) → ∃ i, decode .ru w = .ok i) ∧
    (¬ (1 ≤ (CmdWord.op w).toNat ∧ (CmdWord.op w).toNat ≤ 8) →
      decode .ru w = .error (.unassignedOpcode .ru (CmdWord.op w)))) ∧
  (∀ w : CmdWord,
    ((0x11 ≤ (CmdWord.op w).toNat ∧ (CmdWord.op w).toNat ≤ 0x1B ∧ (CmdWord.op w).toNat ≠ 0x14) →
      ∃ i, decode .wu w = .ok i) ∧
    (¬ (0x11 ≤ (CmdWord.op w).toNat ∧ (CmdWord.op w).toNat ≤ 0x1B ∧ (CmdWord.op w).toNat ≠ 0x14) →
      decode .wu w = .error (.unassignedOpcode .wu (CmdWord.op w))))

/-- R95, R100, R102: what a port decodes is a command of that port whose operands fit their fields. -/
def Obligations.DecodedCommandIsWellFormed : Prop :=
  ∀ (p : Port) (w : CmdWord) (i : Instr), decode p w = .ok i → i.wellFormed = true ∧ i.port = p

/-- R103: the word of a decoded command is the decoded word with every unused bit 0, and a word that agrees on the used
bits decodes to the same command. -/
def Obligations.UnusedBitsAreIgnored : Prop :=
  ∀ (p : Port) (w w' : CmdWord) (i : Instr), decode p w = .ok i →
    encode i = w &&& usedBits i ∧ (w' &&& usedBits i = w &&& usedBits i → decode p w' = .ok i)

/-! ## The step (30_encoding.md R96, 60_exceptions.md) -/

/-- R96: when it is RU's turn, no control action is ahead, RU is idle and the word presented decodes on its port, the step
is that command at the state with the word taken off the port and the turn passed. The turn is the model's own:
notes/assumptions/2.md. -/
def Obligations.StepRunsTheReadersCommand : Prop :=
  ∀ (s : State) (w : CmdWord) (rest : List CmdWord) (i : Instr),
    s.turn = .ru → s.ru.ctl = [] → s.ru.fib = none → s.ru.cmds = w :: rest → decode .ru w = .ok i →
    step s = exec i { s with ru := { s.ru with cmds := rest }, turn := .wu }

/-- R96: when it is WU's turn, no control action is ahead, WU is idle and the word presented decodes on its port, the step
is that command at the state with the word taken off the port and the turn passed. The turn is the model's own:
notes/assumptions/2.md. -/
def Obligations.StepRunsTheWritersCommand : Prop :=
  ∀ (s : State) (w : CmdWord) (rest : List CmdWord) (i : Instr),
    s.turn = .wu → s.wu.ctl = [] → s.wu.waiting = none → s.wu.cmds = w :: rest → decode .wu w = .ok i →
    step s = exec i { s with wu := { s.wu with cmds := rest }, turn := .ru }

/-- R97, R220: on the port a response is its 2-bit status above its 64-bit value: 0 OK, 1 OutOfRange, 2 IllegalCommand, and
never 3. -/
def Obligations.ResponsesCarryTheirStatusCode : Prop :=
  ∀ r : Response,
    r.word.extractLsb' 0 64 = r.value ∧ r.word.extractLsb' 64 2 ≠ 3#2 ∧
    (r.word.extractLsb' 64 2 = 0#2 ↔ r.status = .ok) ∧
    (r.word.extractLsb' 64 2 = 1#2 ↔ r.status = .outOfRange) ∧
    (r.word.extractLsb' 64 2 = 2#2 ↔ r.status = .illegalCommand)

/-- R102, R224: an opcode that is not assigned on its port: no state change, no payload consumed, no result item, the
response (2, 0). That the unit moves in its turn and the turn then passes is the model's choice, of which R224 says nothing:
notes/assumptions/2.md. -/
def Obligations.IllegalCommandOnlyResponds : Prop :=
  (∀ (s : State) (w : CmdWord) (rest : List CmdWord),
    s.turn = .ru → s.ru.ctl = [] → s.ru.fib = none → s.ru.cmds = w :: rest →
    ¬ (1 ≤ (CmdWord.op w).toNat ∧ (CmdWord.op w).toNat ≤ 8) →
    step s = .next
      { s with
        ru := { s.ru with
          cmds := rest
          responses := s.ru.responses ++ [{ status := .illegalCommand, value := 0#64 }] }
        turn := .wu }) ∧
  (∀ (s : State) (w : CmdWord) (rest : List CmdWord),
    s.turn = .wu → s.wu.ctl = [] → s.wu.waiting = none → s.wu.cmds = w :: rest →
    ¬ (0x11 ≤ (CmdWord.op w).toNat ∧ (CmdWord.op w).toNat ≤ 0x1B ∧ (CmdWord.op w).toNat ≠ 0x14) →
    step s = .next
      { s with
        wu := { s.wu with
          cmds := rest
          responses := s.wu.responses ++ [{ status := .illegalCommand, value := 0#64 }] }
        turn := .ru })

/-- A reader in execution takes no command: its turn is one iteration of the loop of R150, which either goes on with the
reader one bit further or meets the terminator and responds. That a busy reader's turn is exactly one iteration is the
model's own account of R155's infinite execution: notes/assumptions/5.md; the turn is notes/assumptions/2.md. -/
def Obligations.BusyReaderRunsOneIteration : Prop :=
  ∀ (s : State) (f : FibRegs), s.turn = .ru → s.ru.Ok → s.ru.ctl = [] → s.ru.fib = some f →
    step s = .next
      { s with
        ru :=
          if s.ru.streamBit s.ru.bitpos && f.last then
            { s.ru.advance 1 with
              fib := none
              responses := s.ru.responses ++ [{ status := .ok, value := f.acc }] }
          else
            { s.ru.advance 1 with
              fib := some
                { fa := f.fb
                  fb := f.fa + f.fb
                  acc := if s.ru.streamBit s.ru.bitpos then f.acc + (f.fa + f.fb) else f.acc
                  last := s.ru.streamBit s.ru.bitpos } }
        turn := .wu }

/-- The writer holds a payload-carrying command accepted while no whole packet stands on `wstream`: nothing else changes,
and its turn does nothing until the packet is whole; once it is, its turn runs the held command, ahead of any command
presented. The model's own account of the wait that R98 leaves open: notes/assumptions/3.md; the turn is
notes/assumptions/2.md. -/
def Obligations.WriterWaitsForItsPacket : Prop :=
  (∀ (s : State) (c : PayloadCmd), takePacket s.wu.wstream = none →
    exec c.instr s = .next { s with wu := { s.wu with waiting := some c } } ∧
    (s.turn = .wu → s.wu.ctl = [] → s.wu.waiting = some c → step s = .next { s with turn := .ru })) ∧
  (∀ (s : State) (c : PayloadCmd) (payload : List Byte) (rest : List Item),
    s.turn = .wu → s.wu.ctl = [] → s.wu.waiting = some c → takePacket s.wu.wstream = some (payload, rest) →
    step s = exec c.instr { s with turn := .ru } ∧
    ∃ t st, step s = .next t ∧ t.wu.waiting = none ∧ t.wu.wstream = rest ∧ t.wu.cmds = s.wu.cmds ∧
      t.wu.responses = s.wu.responses ++ [⟨st, 0#64⟩])

/-- A unit with no control action ahead, no command in execution and none presented has nothing to do in its turn (R251:
it waits for a command). The turn is the model's own: notes/assumptions/2.md. -/
def Obligations.AnIdleUnitWaitsForACommand : Prop :=
  (∀ s : State, s.turn = .ru → s.ru.ctl = [] → s.ru.fib = none → s.ru.cmds = [] →
    step s = .next { s with turn := .wu }) ∧
  (∀ s : State, s.turn = .wu → s.wu.ctl = [] → s.wu.waiting = none → s.wu.cmds = [] →
    step s = .next { s with turn := .ru })

/-- R128, R182, R225: no command and no step stops the machine: every step answers a next state. -/
def Obligations.EveryStepAnswersANextState : Prop :=
  (∀ (i : Instr) (s : State), ∃ t, exec i s = .next t) ∧ ∀ s : State, ∃ t, step s = .next t

/-- Reset of RU binds the source and its length and sets its registers, reset of WU discards a pending partial byte;
either abandons a command in execution without a response, and what was delivered or emitted stays (R40). That the presented
command words and the later control actions stay is the model's choice, on which R40 is silent: notes/assumptions/7.md;
that the reset is served in the unit's turn is notes/assumptions/6.md. -/
def Obligations.ResetPutsAUnitInItsResetState : Prop :=
  (∀ (s : State) (bytes : List Byte) (rest : List ReaderControl),
    s.turn = .ru → s.ru.ctl = .reset bytes :: rest → bytes.length < 2 ^ 64 →
    ∃ t, step s = .next t ∧ t.ru.cursor = 0#64 ∧ t.ru.bitMask = 0x80#8 ∧ t.ru.srcLen.toNat = bytes.length ∧
      (∀ c : Word, t.ru.fetch c = bytes.getD c.toNat 0x00#8) ∧ t.ru.currentByte = bytes.getD 0 0x00#8 ∧
      t.ru.fib = none ∧ t.ru.responses = s.ru.responses ∧ t.ru.rstream = s.ru.rstream ∧
      t.ru.cmds = s.ru.cmds ∧ t.ru.ctl = rest ∧ t.wu = s.wu ∧ t.ru.Ok) ∧
  (∀ (s : State) (rest : List WriterControl), s.turn = .wu → s.wu.ctl = .reset :: rest →
    ∃ t, step s = .next t ∧ t.wu.pendingByte = 0x00#8 ∧ t.wu.bitMask = 0x80#8 ∧ t.wu.position = 0#64 ∧
      t.wu.waiting = none ∧ t.wu.sink = s.wu.sink ∧ t.wu.responses = s.wu.responses ∧
      t.wu.cmds = s.wu.cmds ∧ t.wu.ctl = rest ∧ t.ru = s.ru)

/-- R36, R272: a status read of an idle unit answers the register of that number (0 for a number not in the table) and
changes nothing; of a busy unit it answers one value, of no meaning, and changes no register. The model's own choices: the
read is served in the unit's turn, ahead of any command presented (notes/assumptions/6.md), the turn then passes
(notes/assumptions/2.md), a busy unit's value is a free one (notes/assumptions/4.md), and a number not in the table may be
any natural number (notes/assumptions/10.md). -/
def Obligations.StatusReadsAnswerTheRegisters : Prop :=
  (∀ (s : State) (n : Nat) (rest : List ReaderControl), s.turn = .ru → s.ru.ctl = .readStatus n :: rest →
    s.ru.fib = none →
    ∃ v : Word, step s = .next
        { s with ru := { s.ru with ctl := rest, statusOut := s.ru.statusOut ++ [v] }, turn := .wu } ∧
      (n = 0 → v = s.ru.cursor) ∧ (n = 2 → v = s.ru.srcLen) ∧ (3 ≤ n → v = 0#64) ∧
      (n = 1 → v.extractLsb' 0 8 = s.ru.currentByte ∧ v.extractLsb' 8 8 = s.ru.bitMask ∧ v.toNat < 2 ^ 16)) ∧
  (∀ (s : State) (n : Nat) (rest : List WriterControl), s.turn = .wu → s.wu.ctl = .readStatus n :: rest →
    s.wu.waiting = none →
    ∃ v : Word, step s = .next
        { s with wu := { s.wu with ctl := rest, statusOut := s.wu.statusOut ++ [v] }, turn := .ru } ∧
      (n = 0 → v = s.wu.position) ∧ (2 ≤ n → v = 0#64) ∧
      (n = 1 → v.extractLsb' 0 8 = s.wu.pendingByte ∧ v.extractLsb' 8 8 = s.wu.bitMask ∧ v.toNat < 2 ^ 16)) ∧
  (∀ (s : State) (n : Nat) (rest : List ReaderControl) (f : FibRegs), s.turn = .ru →
    s.ru.ctl = .readStatus n :: rest → s.ru.fib = some f →
    ∃ v : Word, step s = .next
        { s with
          ru := { s.ru with ctl := rest, statusOut := s.ru.statusOut ++ [v], draws := s.ru.draws + 1 }
          turn := .wu }) ∧
  (∀ (s : State) (n : Nat) (rest : List WriterControl) (c : PayloadCmd), s.turn = .wu →
    s.wu.ctl = .readStatus n :: rest → s.wu.waiting = some c →
    ∃ v : Word, step s = .next
        { s with
          wu := { s.wu with ctl := rest, statusOut := s.wu.statusOut ++ [v], draws := s.wu.draws + 1 }
          turn := .ru })

/-! ## The reader's commands (40_bit_reader.md, 41_fib_decoder.md) -/

/-- R121: RDBIT (op 0x01) answers the next stream bit, 0 past the end, and advances by one. -/
def Obligations.RdbitAnswersTheNextStreamBit : Prop :=
  (∀ w : CmdWord, CmdWord.op w = 0x01#8 → decode .ru w = .ok .rdbit) ∧
  ∀ s : State, s.ru.Ok →
    exec .rdbit s = .next
      { s with ru := (s.ru.advance 1).respond .ok (if s.ru.streamBit s.ru.bitpos then 1#64 else 0#64) }

/-- R122: RDBITS (op 0x02, `count = arg0` as u64) pushes the next `count` stream bits, each as 0x00 or 0x01, and answers
`count`. -/
def Obligations.RdbitsPushesTheNextStreamBits : Prop :=
  (∀ w : CmdWord, CmdWord.op w = 0x02#8 → decode .ru w = .ok (.rdbits (CmdWord.arg0 w).toNat)) ∧
  ∀ (s : State) (count : Nat), s.ru.Ok →
    exec (.rdbits count) s = .next
      { s with
        ru := ((s.ru.advance count).push
          ((List.range count).map fun j => if s.ru.streamBit (s.ru.bitpos + j) then 0x01#8 else 0x00#8)).respond
            .ok (BitVec.ofNat 64 count) }

/-- R123: RDBYTE (op 0x03) answers the next 8 stream bits as a byte, zero-extended, wherever the reader stands; it is RDB2 8
in every state. -/
def Obligations.RdbyteAnswersTheNextEightBits : Prop :=
  (∀ w : CmdWord, CmdWord.op w = 0x03#8 → decode .ru w = .ok .rdbyte) ∧
  (∀ s : State, s.ru.Ok →
    exec .rdbyte s = .next
      { s with ru := (s.ru.advance 8).respond .ok ((s.ru.streamByte s.ru.bitpos).setWidth 64) }) ∧
  ∀ s : State, exec .rdbyte s = exec (.rdb2 8) s

/-- R124: RDBYTES (op 0x04, `count = arg0` as u64) pushes the next `count` bytes of the stream and answers `count`. -/
def Obligations.RdbytesPushesTheNextBytes : Prop :=
  (∀ w : CmdWord, CmdWord.op w = 0x04#8 → decode .ru w = .ok (.rdbytes (CmdWord.arg0 w).toNat)) ∧
  ∀ (s : State) (count : Nat), s.ru.Ok →
    exec (.rdbytes count) s = .next
      { s with
        ru := ((s.ru.advance (8 * count)).push
          ((List.range count).map fun j => s.ru.streamByte (s.ru.bitpos + 8 * j))).respond
            .ok (BitVec.ofNat 64 count) }

/-- R125: RDBUF (op 0x05, `buflen = arg0`, `offset = arg1`, `length = arg2` as i64) checks its descriptor over unbounded
integers before any bit is read; a legal one pushes the next `length` bytes of the stream and answers `length`. -/
def Obligations.RdbufPushesTheNextBytes : Prop :=
  (∀ w : CmdWord, CmdWord.op w = 0x05#8 →
    decode .ru w = .ok (.rdbuf (CmdWord.arg0 w).toInt (CmdWord.arg1 w).toInt (CmdWord.arg2 w).toInt)) ∧
  ∀ (s : State) (buflen offset length : Int), s.ru.Ok →
    exec (.rdbuf buflen offset length) s = .next
      { s with
        ru :=
          if offset < 0 ∨ offset > buflen ∨ length < 0 ∨ offset + length > buflen then
            s.ru.respond .outOfRange 0#64
          else
            ((s.ru.advance (8 * length.toNat)).push
              ((List.range length.toNat).map fun j => s.ru.streamByte (s.ru.bitpos + 8 * j))).respond
                .ok (BitVec.ofInt 64 length) }

/-- R222: RDBUF and WRBUF raise OutOfRange exactly for a bad descriptor, over unbounded integers; nothing is read, pushed
or written, and WRBUF's packet is consumed. -/
def Obligations.BulkDescriptorsAreChecked : Prop :=
  (∀ (s : State) (buflen offset length : Int),
    (offset < 0 ∨ offset > buflen ∨ length < 0 ∨ offset + length > buflen) →
    exec (.rdbuf buflen offset length) s = .next { s with ru := s.ru.respond .outOfRange 0#64 }) ∧
  (∀ (s : State) (offset length : Int) (payload : List Byte) (rest : List Item),
    takePacket s.wu.wstream = some (payload, rest) →
    (offset < 0 ∨ offset > payload.length ∨ length < 0 ∨ offset + length > payload.length) →
    exec (.wrbuf offset length) s = .next
      { s with wu := { s.wu with wstream := rest, waiting := none }.respond .outOfRange 0#64 }) ∧
  (∀ (s : State) (buflen offset length : Int),
    ¬ (offset < 0 ∨ offset > buflen ∨ length < 0 ∨ offset + length > buflen) →
    ∃ t v, exec (.rdbuf buflen offset length) s = .next t ∧ t.ru.responses = s.ru.responses ++ [⟨.ok, v⟩]) ∧
  (∀ (s : State) (offset length : Int) (payload : List Byte) (rest : List Item),
    takePacket s.wu.wstream = some (payload, rest) →
    ¬ (offset < 0 ∨ offset > payload.length ∨ length < 0 ∨ offset + length > payload.length) →
    ∃ t, exec (.wrbuf offset length) s = .next t ∧ t.wu.responses = s.wu.responses ++ [⟨.ok, 0#64⟩])

/-- R127: RDB2 (op 0x06, `bitLength = arg0` as i64) checks its length before any bit is read; with a length in [1, 64] it
answers the next `bitLength` stream bits as a number below 2^bitLength, first bit most significant. -/
def Obligations.Rdb2AnswersTheNextBitsAsANumber : Prop :=
  (∀ w : CmdWord, CmdWord.op w = 0x06#8 → decode .ru w = .ok (.rdb2 (CmdWord.arg0 w).toInt)) ∧
  ∀ (s : State) (bitLength : Int), s.ru.Ok →
    bitsValue (s.ru.streamBits s.ru.bitpos bitLength.toNat) < 2 ^ bitLength.toNat ∧
    exec (.rdb2 bitLength) s = .next
      { s with
        ru :=
          if bitLength < 1 ∨ bitLength > 64 then s.ru.respond .outOfRange 0#64
          else
            (s.ru.advance bitLength.toNat).respond .ok
              (BitVec.ofNat 64 (bitsValue (s.ru.streamBits s.ru.bitpos bitLength.toNat))) }

/-- R221: RDB2 raises OutOfRange exactly for a length outside [1, 64], before any bit is read; WRB2 raises it for no
operands. -/
def Obligations.BitLengthIsCheckedOnReadingOnly : Prop :=
  (∀ (s : State) (bitLength : Int), (bitLength < 1 ∨ bitLength > 64) →
    exec (.rdb2 bitLength) s = .next { s with ru := s.ru.respond .outOfRange 0#64 }) ∧
  (∀ (s : State) (bitLength : Int), 1 ≤ bitLength → bitLength ≤ 64 →
    ∃ t v, exec (.rdb2 bitLength) s = .next t ∧ t.ru.responses = s.ru.responses ++ [⟨.ok, v⟩]) ∧
  (∀ (s : State) (value : Word) (bitLength : Int), ∃ t, exec (.wrb2 value bitLength) s = .next t ∧
    t.wu.responses = s.wu.responses ++ [⟨.ok, 0#64⟩])

/-- R129: RDSTR (op 0x08) pushes the bytes before the first zero byte ahead, answers their number `k`, and consumes
`8 (k + 1)` bits; such a byte is always there, because the bytes past the end are zero. -/
def Obligations.RdstrPushesTheBytesBeforeTheZero : Prop :=
  (∀ w : CmdWord, CmdWord.op w = 0x08#8 → decode .ru w = .ok .rdstr) ∧
  ∀ s : State, s.ru.Ok →
    ∃ k : Nat, (∀ j < k, s.ru.streamByte (s.ru.bitpos + 8 * j) ≠ 0x00#8) ∧
      s.ru.streamByte (s.ru.bitpos + 8 * k) = 0x00#8 ∧
      exec .rdstr s = .next
        { s with
          ru := ((s.ru.advance (8 * (k + 1))).push
            ((List.range k).map fun j => s.ru.streamByte (s.ru.bitpos + 8 * j))).respond
              .ok (BitVec.ofNat 64 k) }

/-- R151, R152: where two adjacent 1 bits first end at index `t` ahead, RDFIB (op 0x07) completes, consumes `t + 1` bits and
answers the sum of F(i + 2) over the 1 bits below `t`, modulo 2^64. -/
def Obligations.RdfibAnswersTheCodewordAhead : Prop :=
  (∀ w : CmdWord, CmdWord.op w = 0x07#8 → decode .ru w = .ok .rdfib) ∧
  ∀ (s : State) (t : Nat), s.ru.Ok →
    s.ru.pairAt s.ru.bitpos t = true → (∀ j < t, s.ru.pairAt s.ru.bitpos j = false) →
    exec .rdfib s = .next
      { s with
        ru := (s.ru.advance (t + 1)).respond .ok
          (BitVec.ofNat 64 (fibSum 0 (s.ru.streamBits s.ru.bitpos t))) }

/-- With no two adjacent 1 bits ahead RDFIB never responds (R155): RU is busy after it, and after any number of steps in
which the host asserts no reset of RU it is busy still, with no response, no item and no command taken; with no control
action at all, after `2 k` steps it has performed `k` micro-steps, the cursor advancing and then saturating. That `k` of the
`2 k` steps are RU's is the model's choice (the turns alternate: notes/assumptions/2.md), and so is that each of them is one
iteration and that accepting the command performs none (notes/assumptions/5.md). -/
def Obligations.RdfibWithoutATerminatorNeverResponds : Prop :=
  ∀ s : State, s.ru.Ok → (∀ t, s.ru.pairAt s.ru.bitpos t = false) →
    (∀ c ∈ s.ru.ctl, ∃ n, c = .readStatus n) →
    ∃ t, exec .rdfib s = .next t ∧ t.ru.fib.isSome = true ∧ t.ru.responses = s.ru.responses ∧ t.wu = s.wu ∧
      (∀ k : Nat, ∃ u, Host.Core.run Sys2Proof.core k t = .next u ∧ u.ru.fib.isSome = true ∧
        u.ru.responses = s.ru.responses ∧ u.ru.rstream = s.ru.rstream ∧ u.ru.cmds = s.ru.cmds) ∧
      (s.ru.ctl = [] → ∀ k : Nat, ∃ u, Host.Core.run Sys2Proof.core (2 * k) t = .next u ∧
        u.ru = { s.ru.advance k with fib := u.ru.fib })

/-- R157: where RDFIB answers, it has read `len` data bits and the terminator, and the sum it has added over the data bits
is at least 1; so its answer, that sum modulo 2^64, is not 0 where the sum fits 64 bits. -/
def Obligations.ACodewordCarriesAtLeastOne : Prop :=
  ∀ (s t : State) (st : Status) (v : Word), s.ru.Ok → exec .rdfib s = .next t →
    t.ru.responses = s.ru.responses ++ [⟨st, v⟩] →
    ∃ len : Nat, st = .ok ∧ t.ru = (s.ru.advance (len + 1)).respond .ok v ∧
      v = BitVec.ofNat 64 (fibSum 0 (s.ru.streamBits s.ru.bitpos len)) ∧
      1 ≤ fibSum 0 (s.ru.streamBits s.ru.bitpos len) ∧
      (fibSum 0 (s.ru.streamBits s.ru.bitpos len) < 2 ^ 64 → v ≠ 0#64)

/-- R54: from `8 × srcLen` on every read gives zeros and none is an error: RDBIT, RDB2 and RDBYTE answer 0, RDBITS and
RDBYTES push zeros, so does RDBUF with the descriptor (n, 0, n) (any other: RdbufPushesTheNextBytes), RDSTR answers the empty
sequence at once, RDFIB enters its loop; and a field that straddles the end has its missing low-order bits 0. That RDFIB's own
step leaves RU busy with the working registers at their start values and no micro-step performed is the model's choice:
notes/assumptions/5.md. -/
def Obligations.ReadsPastTheEndGiveZeros : Prop :=
  ∀ s : State, s.ru.Ok →
    (8 * s.ru.srcLen.toNat ≤ s.ru.bitpos →
      exec .rdbit s = .next { s with ru := (s.ru.advance 1).respond .ok 0#64 } ∧
      exec .rdbyte s = .next { s with ru := (s.ru.advance 8).respond .ok 0#64 } ∧
      (∀ n : Int, 1 ≤ n → n ≤ 64 →
        exec (.rdb2 n) s = .next { s with ru := (s.ru.advance n.toNat).respond .ok 0#64 }) ∧
      (∀ n : Nat, exec (.rdbits n) s = .next
        { s with ru := ((s.ru.advance n).push (List.replicate n 0x00#8)).respond .ok (BitVec.ofNat 64 n) }) ∧
      (∀ n : Nat, exec (.rdbytes n) s = .next
        { s with ru := ((s.ru.advance (8 * n)).push (List.replicate n 0x00#8)).respond .ok (BitVec.ofNat 64 n) }) ∧
      (∀ n : Nat, exec (.rdbuf n 0 n) s = .next
        { s with ru := ((s.ru.advance (8 * n)).push (List.replicate n 0x00#8)).respond .ok (BitVec.ofNat 64 n) }) ∧
      exec .rdstr s = .next { s with ru := (s.ru.advance 8).respond .ok 0#64 } ∧
      exec .rdfib s = .next { s with ru := { s.ru with fib := some FibRegs.init } }) ∧
    (∀ n m : Nat, m ≤ n → n ≤ 64 → 8 * s.ru.srcLen.toNat + m = s.ru.bitpos + n →
      bitsValue (s.ru.streamBits s.ru.bitpos n) % 2 ^ m = 0)

/-- R97, R128: every reader command but RDFIB delivers exactly one response from every state and on every source: status OK,
unless RDB2's length or RDBUF's descriptor is out of range. -/
def Obligations.ReaderCommandsRespondOnce : Prop :=
  ∀ (i : Instr) (s : State), i.port = .ru → i ≠ .rdfib →
    ∃ t st v, exec i s = .next t ∧ t.ru.responses = s.ru.responses ++ [⟨st, v⟩] ∧
      (st = .ok ∨ (st = .outOfRange ∧ v = 0#64 ∧
        ((∃ n, i = .rdb2 n ∧ (n < 1 ∨ n > 64)) ∨
          ∃ b o l, i = .rdbuf b o l ∧ (o < 0 ∨ o > b ∨ l < 0 ∨ o + l > b))))

/-- R20, R21, R130: the frame of the reader's commands: WU, the turn, the source and every byte of it, and what else stands
on RU's ports are unchanged; delivered items and responses stay, in order. -/
def Obligations.ReaderCommandsTouchOnlyTheReader : Prop :=
  ∀ (i : Instr) (s t : State), i.port = .ru → exec i s = .next t →
    t.wu = s.wu ∧ t.turn = s.turn ∧ t.ru.source = s.ru.source ∧ t.ru.srcLen = s.ru.srcLen ∧
    (∀ c : Word, t.ru.fetch c = s.ru.fetch c) ∧ t.ru.ctl = s.ru.ctl ∧ t.ru.cmds = s.ru.cmds ∧
    t.ru.statusOut = s.ru.statusOut ∧ t.ru.draws = s.ru.draws ∧ (i ≠ .rdfib → t.ru.fib = s.ru.fib) ∧
    s.ru.rstream <+: t.ru.rstream ∧ s.ru.responses <+: t.ru.responses

/-! ## The writer's commands (42_bit_writer.md, 43_fib_encoder.md) -/

/-- R171: WRBIT (op 0x11, the bit `arg0[0]`) appends one bit. -/
def Obligations.WrbitAppendsItsBit : Prop :=
  (∀ w : CmdWord, CmdWord.op w = 0x11#8 → decode .wu w = .ok (.wrbit ((CmdWord.arg0 w).getLsbD 0))) ∧
  ∀ (s : State) (b : Bool), s.wu.Ok →
    exec (.wrbit b) s = .next { s with wu := (s.wu.append [b]).respond .ok 0#64 }

/-- R172: WRBITS (op 0x12) takes the packet and appends `data[0]` of each of its items. -/
def Obligations.WrbitsAppendsThePayloadBits : Prop :=
  (∀ w : CmdWord, CmdWord.op w = 0x12#8 → decode .wu w = .ok .wrbits) ∧
  ∀ (s : State) (payload : List Byte) (rest : List Item), s.wu.Ok →
    takePacket s.wu.wstream = some (payload, rest) →
    exec .wrbits s = .next
      { s with
        wu := (Writer.append (payload.map fun b => b.getLsbD 0)
          { s.wu with wstream := rest, waiting := none }).respond .ok 0#64 }

/-- R173: WRBYTE (op 0x13, the byte `arg0[7:0]`) appends the 8 bits of its byte, most significant first, wherever the writer
stands, and emits exactly one byte; it is WRB2 of length 8 in every state. -/
def Obligations.WrbyteAppendsEightBits : Prop :=
  (∀ w : CmdWord, CmdWord.op w = 0x13#8 → decode .wu w = .ok (.wrbyte ((CmdWord.arg0 w).extractLsb' 0 8))) ∧
  (∀ (s : State) (b : Byte), s.wu.Ok →
    exec (.wrbyte b) s = .next { s with wu := (s.wu.append (byteBits b)).respond .ok 0#64 } ∧
      (s.wu.append (byteBits b)).sink.length = s.wu.sink.length + 1) ∧
  ∀ (s : State) (b : Byte), exec (.wrbyte b) s = exec (.wrb2 (b.setWidth 64) 8) s

/-- R174: WRBUF (op 0x15, `offset = arg0`, `length = arg1` as i64) takes the packet whole in every case and checks its
descriptor over unbounded integers before any bit is written; a legal one appends the bytes of the window and no others. -/
def Obligations.WrbufAppendsTheWindow : Prop :=
  (∀ w : CmdWord, CmdWord.op w = 0x15#8 →
    decode .wu w = .ok (.wrbuf (CmdWord.arg0 w).toInt (CmdWord.arg1 w).toInt)) ∧
  ∀ (s : State) (offset length : Int) (payload : List Byte) (rest : List Item), s.wu.Ok →
    takePacket s.wu.wstream = some (payload, rest) →
    exec (.wrbuf offset length) s = .next
      { s with
        wu :=
          if offset < 0 ∨ offset > payload.length ∨ length < 0 ∨ offset + length > payload.length then
            { s.wu with wstream := rest, waiting := none }.respond .outOfRange 0#64
          else
            (Writer.append
              (bytesBits ((List.range length.toNat).map fun j => payload.getD (offset.toNat + j) 0x00#8))
              { s.wu with wstream := rest, waiting := none }).respond .ok 0#64 }

/-- R175, R177: WRB2 (op 0x16, `value = arg0` as u64, `bitLength = arg1` as i64) appends the low `bitLength` bits of its
value, most significant first: nothing for a length of 0 or less, zeros above bit 63 for a length beyond 64. -/
def Obligations.Wrb2AppendsTheLowBits : Prop :=
  (∀ w : CmdWord, CmdWord.op w = 0x16#8 →
    decode .wu w = .ok (.wrb2 (CmdWord.arg0 w) (CmdWord.arg1 w).toInt)) ∧
  ∀ (s : State) (value : Word) (bitLength : Int), s.wu.Ok →
    exec (.wrb2 value bitLength) s = .next
      { s with
        wu := (s.wu.append
          ((List.range bitLength.toNat).map fun j => value.getLsbD (bitLength.toNat - 1 - j))).respond .ok 0#64 }

/-- R178: WRSTR (op 0x19) takes the packet and appends the bytes before its first zero byte and then exactly one zero
byte. -/
def Obligations.WrstrAppendsATerminatedString : Prop :=
  (∀ w : CmdWord, CmdWord.op w = 0x19#8 → decode .wu w = .ok .wrstr) ∧
  ∀ (s : State) (payload : List Byte) (rest : List Item), s.wu.Ok →
    takePacket s.wu.wstream = some (payload, rest) →
    exec .wrstr s = .next
      { s with
        wu := (Writer.append (bytesBits (untilZero payload ++ [0x00#8]))
          { s.wu with wstream := rest, waiting := none }).respond .ok 0#64 }

/-- R204: WRFIBU (op 0x17, `value = arg0` as u64) appends FibCode of its operand, whatever the operand. -/
def Obligations.WrfibuAppendsTheCodeword : Prop :=
  (∀ w : CmdWord, CmdWord.op w = 0x17#8 → decode .wu w = .ok (.wrfibu (CmdWord.arg0 w))) ∧
  ∀ (s : State) (value : Word), s.wu.Ok →
    exec (.wrfibu value) s = .next { s with wu := (s.wu.append (fibCode value.toNat)).respond .ok 0#64 }

/-- R205: WRFIBS (op 0x18, `value = arg0` as i64) checks positivity before any bit is written; a positive operand is
encoded as WRFIBU encodes the same 64-bit pattern. -/
def Obligations.WrfibsAppendsTheCodeword : Prop :=
  (∀ w : CmdWord, CmdWord.op w = 0x18#8 → decode .wu w = .ok (.wrfibs (CmdWord.arg0 w).toInt)) ∧
  (∀ (s : State) (value : Int), s.wu.Ok →
    exec (.wrfibs value) s = .next
      { s with
        wu :=
          if value ≤ 0 then s.wu.respond .outOfRange 0#64
          else (s.wu.append (fibCode value.toNat)).respond .ok 0#64 }) ∧
  ∀ (s : State) (value : Int), 0 < value → value < 2 ^ 63 →
    exec (.wrfibs value) s = exec (.wrfibu (BitVec.ofInt 64 value)) s

/-- R223: WRFIBS raises OutOfRange exactly for an operand that is not positive, before any bit is written; WRFIBU accepts
every operand, 0 among them. -/
def Obligations.PositivityIsCheckedOnTheSignedEntryOnly : Prop :=
  (∀ (s : State) (value : Int), value ≤ 0 →
    exec (.wrfibs value) s = .next { s with wu := s.wu.respond .outOfRange 0#64 }) ∧
  (∀ (s : State) (value : Int), 0 < value → ∃ t, exec (.wrfibs value) s = .next t ∧
    t.wu.responses = s.wu.responses ++ [⟨.ok, 0#64⟩]) ∧
  (∀ (s : State) (value : Word), ∃ t, exec (.wrfibu value) s = .next t ∧
    t.wu.responses = s.wu.responses ++ [⟨.ok, 0#64⟩])

/-- R179: FLUSH (op 0x1A) emits the pending byte, regardless of fill state: the pending bits padded with zeros (R90), 0x00
with nothing pending; mask and byte are reset, `position` is unchanged; a second FLUSH emits 0x00. -/
def Obligations.FlushEmitsThePaddedByte : Prop :=
  (∀ w : CmdWord, CmdWord.op w = 0x1A#8 → decode .wu w = .ok .flush) ∧
  ∀ s : State, s.wu.Ok →
    byteBits s.wu.pendingByte = s.wu.pendingBits ++ List.replicate (8 - s.wu.pendingBits.length) false ∧
      exec .flush s = .next
        { s with
          wu := { s.wu with
            sink := s.wu.sink ++ [s.wu.pendingByte]
            pendingByte := 0x00#8
            bitMask := 0x80#8
            responses := s.wu.responses ++ [⟨.ok, 0#64⟩] } } ∧
      execAll [.flush, .flush] s = .next
        { s with
          wu := { s.wu with
            sink := s.wu.sink ++ [s.wu.pendingByte, 0x00#8]
            pendingByte := 0x00#8
            bitMask := 0x80#8
            responses := s.wu.responses ++ [⟨.ok, 0#64⟩, ⟨.ok, 0#64⟩] } }

/-- R180: FINISH (op 0x1B) emits the pending byte and resets byte and mask exactly when bits are pending; on a byte boundary
it does nothing but respond, and so does a FINISH after a FINISH or after a FLUSH. -/
def Obligations.FinishEmitsPendingBitsOnce : Prop :=
  (∀ w : CmdWord, CmdWord.op w = 0x1B#8 → decode .wu w = .ok .finish) ∧
  (∀ s : State, s.wu.bitMask = 0x80#8 → exec .finish s = .next { s with wu := s.wu.respond .ok 0#64 }) ∧
  (∀ s : State, s.wu.bitMask ≠ 0x80#8 →
    exec .finish s = .next
      { s with
        wu := { s.wu with
          sink := s.wu.sink ++ [s.wu.pendingByte]
          pendingByte := 0x00#8
          bitMask := 0x80#8
          responses := s.wu.responses ++ [⟨.ok, 0#64⟩] } }) ∧
  ∀ s t : State, (exec .finish s = .next t ∨ exec .flush s = .next t) →
    exec .finish t = .next { t with wu := t.wu.respond .ok 0#64 }

/-- R98: the packet is all items up to and including the first with `last = 1`, null items skipped. WRBITS, WRBUF and WRSTR
consume exactly one, whole, whether they succeed or fail; every other command, and a word whose opcode the port does not
assign, consumes none. -/
def Obligations.ExactlyOnePacketIsConsumed : Prop :=
  (∀ (items : List Item) (it : Item) (rest : List Item), (∀ x ∈ items, x.last = false) → it.last = true →
    takePacket (items ++ it :: rest)
      = some (((items ++ [it]).filter fun x => !x.null).map fun x => x.data, rest)) ∧
  (∀ (s : State) (c : PayloadCmd) (payload : List Byte) (rest : List Item),
    takePacket s.wu.wstream = some (payload, rest) →
    ∃ t, exec c.instr s = .next t ∧ t.wu.wstream = rest ∧ t.wu.waiting = none ∧
      ∃ st, t.wu.responses = s.wu.responses ++ [⟨st, 0#64⟩]) ∧
  (∀ (s t : State) (i : Instr), (∀ c : PayloadCmd, i ≠ c.instr) → exec i s = .next t →
    t.wu.wstream = s.wu.wstream ∧ t.wu.waiting = s.wu.waiting) ∧
  (∀ (s : State) (w : CmdWord) (rest : List CmdWord) (e : DecodeError), s.turn = .wu → s.wu.ctl = [] →
    s.wu.waiting = none → s.wu.cmds = w :: rest → decode .wu w = .error e →
    ∃ t, step s = .next t ∧ t.wu.wstream = s.wu.wstream)

/-- R98, 92_eei_decisions.md D10: a packet presented in front of the stream is taken whole, its payload in order. -/
def Obligations.PresentedPacketIsTaken : Prop :=
  ∀ (payload : List Byte) (rest : List Item), takePacket (packetOf payload ++ rest) = some (payload, rest)

/-- R20, R55: the frame of the writer's commands: RU, the turn and what else stands on WU's ports are unchanged; every byte
emitted before stays where it was; delivered responses stay, in order. -/
def Obligations.WriterCommandsTouchOnlyTheWriter : Prop :=
  ∀ (i : Instr) (s t : State), i.port = .wu → exec i s = .next t →
    t.ru = s.ru ∧ t.turn = s.turn ∧ t.wu.ctl = s.wu.ctl ∧ t.wu.cmds = s.wu.cmds ∧
    t.wu.statusOut = s.wu.statusOut ∧ t.wu.draws = s.wu.draws ∧
    s.wu.sink <+: t.wu.sink ∧ s.wu.responses <+: t.wu.responses

/-- R29, R182: a writer command other than FLUSH and FINISH that writes `n` bits counts them in `position`, modulo 2^64,
and brings the bits in the sink and pending up by exactly `n`; FLUSH and FINISH, which alone pad, leave `position` as it
was: pad bits are never counted. -/
def Obligations.PositionCountsTheBitsWritten : Prop :=
  (∀ (i : Instr) (s t : State), i.port = .wu → i ≠ .flush → i ≠ .finish → s.wu.Ok → exec i s = .next t →
    ∃ n : Nat, t.wu.position = s.wu.position + BitVec.ofNat 64 n ∧
      8 * t.wu.sink.length + maskIndex t.wu.bitMask = 8 * s.wu.sink.length + maskIndex s.wu.bitMask + n) ∧
  (∀ s t : State, (exec .flush s = .next t ∨ exec .finish s = .next t) → t.wu.position = s.wu.position)

/-- R86: the codeword of a value of 1 to 2^64 - 1 has `n + 1` bits with F(n + 1) ≤ v < F(n + 2); data bit `i` is 1 exactly
when F(i + 2) is a term of the greedy (Zeckendorf) decomposition; the weights of the data bits sum to the value, data bit
`n - 1` and the terminator are 1, and no two adjacent data bits are. -/
def Obligations.FibCodeIsTheZeckendorfCodeword : Prop :=
  ∀ v : Nat, 1 ≤ v → v < 2 ^ 64 →
    ∃ data : List Bool, fibCode v = data ++ [true] ∧
      Nat.fib (data.length + 1) ≤ v ∧ v < Nat.fib (data.length + 2) ∧
      (∀ i, data.getD i false = true ↔ i + 2 ∈ Nat.zeckendorf v) ∧ fibSum 0 data = v ∧
      data.getLast? = some true ∧
      ∀ j, ¬ (data.getD j false = true ∧ data.getD (j + 1) false = true)

/-- R89: every bit string that ends in "11" and holds no other "11" is the codeword of the sum of its data bits' weights,
where that sum is an operand of 64 bits; and what is written for 0 is the single bit 1 (R206). -/
def Obligations.EveryTerminatedStringIsACodeword : Prop :=
  (∀ data : List Bool, data.getLast? = some true →
    (∀ j, ¬ (data.getD j false = true ∧ data.getD (j + 1) false = true)) → fibSum 0 data < 2 ^ 64 →
    fibCode (fibSum 0 data) = data ++ [true]) ∧
  fibCode 0 = [true]

/-- R201, R203: the reference loop over 64-bit registers, a 65-bit comparison and a 93-bit code register hands the same bits
to WRBIT as FibCode, for every 64-bit operand. -/
def Obligations.ReferenceEncoderMeetsFibCode : Prop :=
  ∀ value : Word, fibEncodeLoop value = fibCode value.toNat

/-! ## The whole machine -/

/-- R40: the state after reset meets the invariants of both units. -/
def Obligations.ResetMeetsTheInvariant : Prop := State.Ok State.reset

/-- R23, R24, R25, R27, R28, R30: at every step boundary both masks are one-hot, `currentByte` is `Fetch(cursor)`, the
source keeps its one form, and `pendingByte` is 0 at the mask and below. -/
def Obligations.EveryStepKeepsTheInvariant : Prop :=
  ∀ s t : State, s.Ok → step s = .next t → t.Ok

/-- R20, R63, R238: a unit's move reads and changes that unit alone: it leaves the other unit as it was, and what it makes
of its own does not depend on the other. That a step is the move of the unit whose turn it is, and that the turn then passes
to the other, is the model's choice: notes/assumptions/2.md. -/
def Obligations.UnitsDoNotInfluenceEachOther : Prop :=
  (∀ s s' t t' : State, s.turn = .ru → s'.turn = .ru → s.ru = s'.ru → step s = .next t → step s' = .next t' →
    t.ru = t'.ru ∧ t.wu = s.wu ∧ t.turn = .wu) ∧
  (∀ s s' t t' : State, s.turn = .wu → s'.turn = .wu → s.wu = s'.wu → step s = .next t → step s' = .next t' →
    t.wu = t'.wu ∧ t.ru = s.ru ∧ t.turn = .ru)

/-- R63, 92_eei_decisions.md D37: the interleaving of the units does not matter: RU's move and then WU's gives the same two
units as WU's move and then RU's. That two steps are one move of each unit is the model's choice (the turns alternate):
notes/assumptions/2.md. -/
def Obligations.MovesOfTheUnitsCommute : Prop :=
  ∀ s : State, ∃ t u : State,
    Host.Core.run Sys2Proof.core 2 { s with turn := .ru } = .next t ∧
    Host.Core.run Sys2Proof.core 2 { s with turn := .wu } = .next u ∧ t.ru = u.ru ∧ t.wu = u.wu

/-- R26, R55: no step, a reset among them, changes, withdraws or reorders a byte of the sink. -/
def Obligations.TheSinkOnlyGrows : Prop :=
  ∀ s t : State, step s = .next t → s.wu.sink <+: t.wu.sink

/-- R21, R22: but for a reset of RU no step changes the source or its length, and none moves the cursor back. -/
def Obligations.TheSourceIsImmutableBetweenResets : Prop :=
  ∀ s t : State, step s = .next t → (∀ bytes rest, s.ru.ctl ≠ .reset bytes :: rest) →
    t.ru.source = s.ru.source ∧ t.ru.srcLen = s.ru.srcLen ∧ (s.ru.Ok → s.ru.cursor.toNat ≤ t.ru.cursor.toNat)

/-- R254: where a WU run from an idle writer, without a reset, is complete (its last command is FINISH or FLUSH and has
responded), the sink holds every written bit: no bit is pending, and whatever stood in the sink and pending at any point of
the run is in the sink, in order. How many steps the run takes is not said. -/
def Obligations.ACompleteWriterRunLeavesNoBitPending : Prop :=
  ∀ (s t : State) (k : Nat), s.wu.Ok → s.wu.waiting = none → (∀ c ∈ s.wu.ctl, ∃ n, c = .readStatus n) →
    Host.Core.run Sys2Proof.core k s = .next t → Writer.complete s.wu.cmds s.wu t.wu = true →
    t.wu.pendingBits = [] ∧
      ∀ (j : Nat) (u : State), j ≤ k → Host.Core.run Sys2Proof.core j s = .next u →
        bytesBits u.wu.sink ++ u.wu.pendingBits <+: bytesBits t.wu.sink

/-- R226, R228: a command that reports an error leaves its unit as it was: no register, sink byte or result item changed,
the response its only record; WRBUF still consumes its packet, whole. -/
def Obligations.ErrorsLeaveOnlyTheirResponse : Prop :=
  ∀ (i : Instr) (s t : State) (st : Status) (v : Word), exec i s = .next t → st ≠ .ok →
    (i.port = .ru → t.ru.responses = s.ru.responses ++ [⟨st, v⟩] →
      v = 0#64 ∧ t = { s with ru := s.ru.respond st 0#64 }) ∧
    (i.port = .wu → t.wu.responses = s.wu.responses ++ [⟨st, v⟩] →
      v = 0#64 ∧
      ((∀ o l, i ≠ .wrbuf o l) → t = { s with wu := s.wu.respond st 0#64 }) ∧
      ∀ o l, i = .wrbuf o l → ∃ payload rest, takePacket s.wu.wstream = some (payload, rest) ∧
        t = { s with wu := { s.wu with wstream := rest, waiting := none }.respond st 0#64 })

/-- R154: for every value of 1 to 2^64 - 1, whatever bits stand before and after it in the stream: RDFIB at the place where
WRFIBU's codeword stands answers the value and consumes exactly its bits. -/
def Obligations.FibonacciRoundTrip : Prop :=
  ∀ (s : State) (value : Word), s.ru.Ok → value ≠ 0#64 →
    s.ru.streamBits s.ru.bitpos (fibCode value.toNat).length = fibCode value.toNat →
    exec .rdfib s = .next { s with ru := (s.ru.advance (fibCode value.toNat).length).respond .ok value }

/-- R68 (95_test_vectors.md Part 4): any plan of fields reads back as it was written. WU from reset writes the fields one
after another and finishes; RU is reset on the sink and reads the same kinds and lengths: every response is OK with the
field's value, and the result items are the fields' contents in order. -/
def Obligations.AnyPlanOfFieldsReadsBack : Prop :=
  ∀ plan : List Field, (∀ f ∈ plan, f.wellFormed = true) → (plan.flatMap Field.stream).length < 2 ^ 64 →
    ∃ t u : State,
      execAll (plan.map Field.writeCommand ++ [.finish])
        { State.reset with wu := { Writer.reset with wstream := plan.flatMap Field.packet } } = .next t ∧
      bytesBits t.wu.sink
        = plan.flatMap Field.stream ++ List.replicate ((8 - (plan.flatMap Field.stream).length % 8) % 8) false ∧
      execAll (plan.map Field.readCommand) { t with ru := Reader.resetOn t.wu.sink t.ru } = .next u ∧
      u.ru.responses = plan.map (fun f => { status := .ok, value := f.readValue }) ∧
      u.ru.rstream = plan.flatMap Field.readItems
end

