-- ==== Sys2Proof/Laws/Decode.lean ====
section
/-! SUPPORT. The fields of an assembled word, what a 64-bit field carries, and which port a decoded word belongs to. -/

namespace Sys2Proof

/-! ## The four fields of an assembled word -/

@[simp] theorem op_assemble (op : Byte) (arg0 arg1 arg2 : Word) : CmdWord.op (assemble op arg0 arg1 arg2) = op := by
  apply BitVec.eq_of_getLsbD_eq
  intro i hi
  simp only [CmdWord.op, assemble, BitVec.getLsbD_extractLsb', BitVec.getLsbD_append]
  simp [show i < 136 by omega, show i < 72 by omega, hi]

@[simp] theorem arg0_assemble (op : Byte) (arg0 arg1 arg2 : Word) :
    CmdWord.arg0 (assemble op arg0 arg1 arg2) = arg0 := by
  apply BitVec.eq_of_getLsbD_eq
  intro i hi
  simp only [CmdWord.arg0, assemble, BitVec.getLsbD_extractLsb', BitVec.getLsbD_append]
  simp [show 8 + i < 136 by omega, show 8 + i < 72 by omega, hi]

@[simp] theorem arg1_assemble (op : Byte) (arg0 arg1 arg2 : Word) :
    CmdWord.arg1 (assemble op arg0 arg1 arg2) = arg1 := by
  apply BitVec.eq_of_getLsbD_eq
  intro i hi
  simp only [CmdWord.arg1, assemble, BitVec.getLsbD_extractLsb', BitVec.getLsbD_append]
  simp [hi]
  omega

@[simp] theorem arg2_assemble (op : Byte) (arg0 arg1 arg2 : Word) :
    CmdWord.arg2 (assemble op arg0 arg1 arg2) = arg2 := by
  apply BitVec.eq_of_getLsbD_eq
  intro i hi
  simp only [CmdWord.arg2, assemble, BitVec.getLsbD_extractLsb', BitVec.getLsbD_append]
  simp [hi]

/-! ## A field read as i64 -/

theorem sint_ofInt {x : Int} (h : fitsI64 x = true) : sint (BitVec.ofInt 64 x) = x := by
  simp only [fitsI64, Bool.and_eq_true, decide_eq_true_eq] at h
  unfold sint
  rw [BitVec.toInt_ofInt]
  apply Int.bmod_eq_of_le <;> omega

theorem sint_fitsI64 (w : Word) : fitsI64 (sint w) = true := by
  have h1 := BitVec.toInt_lt (x := w)
  have h2 := BitVec.le_toInt (x := w)
  simp only [fitsI64, sint, Bool.and_eq_true]
  constructor <;> norm_num at * <;> omega

/-! ## Ports -/

theorem decode_ok_port {p : Port} {w : CmdWord} {i : Instr} (h : decode p w = .ok i) : i.port = p := by
  cases p
  · simp only [decode, decodeReader] at h
    split at h <;> cases h <;> rfl
  · simp only [decode, decodeWriter] at h
    split at h <;> cases h <;> rfl

end Sys2Proof
end

