-- ==== Sys2Proof/Laws/State.lean ====
section
/-! SUPPORT. One lemma per field per update of the state, so that no later proof unfolds a record update. -/

namespace Sys2Proof.Machine

/-! ## Reader updates -/

@[simp] theorem Reader.push_source (l : List Byte) (r : Reader) : (r.push l).source = r.source := rfl
@[simp] theorem Reader.push_srcLen (l : List Byte) (r : Reader) : (r.push l).srcLen = r.srcLen := rfl
@[simp] theorem Reader.push_cursor (l : List Byte) (r : Reader) : (r.push l).cursor = r.cursor := rfl
@[simp] theorem Reader.push_currentByte (l : List Byte) (r : Reader) : (r.push l).currentByte = r.currentByte := rfl
@[simp] theorem Reader.push_bitMask (l : List Byte) (r : Reader) : (r.push l).bitMask = r.bitMask := rfl
@[simp] theorem Reader.push_fib (l : List Byte) (r : Reader) : (r.push l).fib = r.fib := rfl
@[simp] theorem Reader.push_ctl (l : List Byte) (r : Reader) : (r.push l).ctl = r.ctl := rfl
@[simp] theorem Reader.push_cmds (l : List Byte) (r : Reader) : (r.push l).cmds = r.cmds := rfl
@[simp] theorem Reader.push_rstream (l : List Byte) (r : Reader) : (r.push l).rstream = r.rstream ++ l := rfl
@[simp] theorem Reader.push_responses (l : List Byte) (r : Reader) : (r.push l).responses = r.responses := rfl
@[simp] theorem Reader.push_statusOut (l : List Byte) (r : Reader) : (r.push l).statusOut = r.statusOut := rfl
@[simp] theorem Reader.push_draws (l : List Byte) (r : Reader) : (r.push l).draws = r.draws := rfl

@[simp] theorem Reader.respond_source (e : Status) (v : Word) (r : Reader) : (r.respond e v).source = r.source := rfl
@[simp] theorem Reader.respond_srcLen (e : Status) (v : Word) (r : Reader) : (r.respond e v).srcLen = r.srcLen := rfl
@[simp] theorem Reader.respond_cursor (e : Status) (v : Word) (r : Reader) : (r.respond e v).cursor = r.cursor := rfl
@[simp] theorem Reader.respond_currentByte (e : Status) (v : Word) (r : Reader) :
    (r.respond e v).currentByte = r.currentByte := rfl
@[simp] theorem Reader.respond_bitMask (e : Status) (v : Word) (r : Reader) :
    (r.respond e v).bitMask = r.bitMask := rfl
@[simp] theorem Reader.respond_fib (e : Status) (v : Word) (r : Reader) : (r.respond e v).fib = r.fib := rfl
@[simp] theorem Reader.respond_ctl (e : Status) (v : Word) (r : Reader) : (r.respond e v).ctl = r.ctl := rfl
@[simp] theorem Reader.respond_cmds (e : Status) (v : Word) (r : Reader) : (r.respond e v).cmds = r.cmds := rfl
@[simp] theorem Reader.respond_rstream (e : Status) (v : Word) (r : Reader) :
    (r.respond e v).rstream = r.rstream := rfl
@[simp] theorem Reader.respond_responses (e : Status) (v : Word) (r : Reader) :
    (r.respond e v).responses = r.responses ++ [{ status := e, value := v }] := rfl
@[simp] theorem Reader.respond_statusOut (e : Status) (v : Word) (r : Reader) :
    (r.respond e v).statusOut = r.statusOut := rfl
@[simp] theorem Reader.respond_draws (e : Status) (v : Word) (r : Reader) : (r.respond e v).draws = r.draws := rfl

/-! ## Writer updates -/

@[simp] theorem Writer.respond_sink (e : Status) (v : Word) (w : Writer) : (w.respond e v).sink = w.sink := rfl
@[simp] theorem Writer.respond_pendingByte (e : Status) (v : Word) (w : Writer) :
    (w.respond e v).pendingByte = w.pendingByte := rfl
@[simp] theorem Writer.respond_bitMask (e : Status) (v : Word) (w : Writer) :
    (w.respond e v).bitMask = w.bitMask := rfl
@[simp] theorem Writer.respond_position (e : Status) (v : Word) (w : Writer) :
    (w.respond e v).position = w.position := rfl
@[simp] theorem Writer.respond_waiting (e : Status) (v : Word) (w : Writer) :
    (w.respond e v).waiting = w.waiting := rfl
@[simp] theorem Writer.respond_ctl (e : Status) (v : Word) (w : Writer) : (w.respond e v).ctl = w.ctl := rfl
@[simp] theorem Writer.respond_cmds (e : Status) (v : Word) (w : Writer) : (w.respond e v).cmds = w.cmds := rfl
@[simp] theorem Writer.respond_wstream (e : Status) (v : Word) (w : Writer) :
    (w.respond e v).wstream = w.wstream := rfl
@[simp] theorem Writer.respond_responses (e : Status) (v : Word) (w : Writer) :
    (w.respond e v).responses = w.responses ++ [{ status := e, value := v }] := rfl
@[simp] theorem Writer.respond_statusOut (e : Status) (v : Word) (w : Writer) :
    (w.respond e v).statusOut = w.statusOut := rfl
@[simp] theorem Writer.respond_draws (e : Status) (v : Word) (w : Writer) : (w.respond e v).draws = w.draws := rfl

@[simp] theorem Writer.sinkEmit_sink (b : Byte) (w : Writer) : (w.sinkEmit b).sink = w.sink ++ [b] := rfl
@[simp] theorem Writer.sinkEmit_pendingByte (b : Byte) (w : Writer) :
    (w.sinkEmit b).pendingByte = w.pendingByte := rfl
@[simp] theorem Writer.sinkEmit_bitMask (b : Byte) (w : Writer) : (w.sinkEmit b).bitMask = w.bitMask := rfl
@[simp] theorem Writer.sinkEmit_position (b : Byte) (w : Writer) : (w.sinkEmit b).position = w.position := rfl

@[simp] theorem Writer.emitPending_sink (w : Writer) : w.emitPending.sink = w.sink ++ [w.pendingByte] := rfl
@[simp] theorem Writer.emitPending_pendingByte (w : Writer) : w.emitPending.pendingByte = 0x00#8 := rfl
@[simp] theorem Writer.emitPending_bitMask (w : Writer) : w.emitPending.bitMask = 0x80#8 := rfl
@[simp] theorem Writer.emitPending_position (w : Writer) : w.emitPending.position = w.position := rfl
@[simp] theorem Writer.emitPending_waiting (w : Writer) : w.emitPending.waiting = w.waiting := rfl
@[simp] theorem Writer.emitPending_ctl (w : Writer) : w.emitPending.ctl = w.ctl := rfl
@[simp] theorem Writer.emitPending_cmds (w : Writer) : w.emitPending.cmds = w.cmds := rfl
@[simp] theorem Writer.emitPending_wstream (w : Writer) : w.emitPending.wstream = w.wstream := rfl
@[simp] theorem Writer.emitPending_responses (w : Writer) : w.emitPending.responses = w.responses := rfl
@[simp] theorem Writer.emitPending_statusOut (w : Writer) : w.emitPending.statusOut = w.statusOut := rfl
@[simp] theorem Writer.emitPending_draws (w : Writer) : w.emitPending.draws = w.draws := rfl

/-! ## State updates -/

@[simp] theorem State.completeReader_ru (r : Reader) (l : List Byte) (v : Word) (s : State) :
    (s.completeReader r l v).ru = (r.push l).respond .ok v := rfl
@[simp] theorem State.completeReader_wu (r : Reader) (l : List Byte) (v : Word) (s : State) :
    (s.completeReader r l v).wu = s.wu := rfl
@[simp] theorem State.completeReader_turn (r : Reader) (l : List Byte) (v : Word) (s : State) :
    (s.completeReader r l v).turn = s.turn := rfl

@[simp] theorem State.completeWriter_ru (w : Writer) (s : State) : (s.completeWriter w).ru = s.ru := rfl
@[simp] theorem State.completeWriter_wu (w : Writer) (s : State) :
    (s.completeWriter w).wu = w.respond .ok 0#64 := rfl
@[simp] theorem State.completeWriter_turn (w : Writer) (s : State) : (s.completeWriter w).turn = s.turn := rfl

@[simp] theorem State.raise_ru_ru (e : ErrorKind) (s : State) :
    (s.raise .ru e).ru = s.ru.respond e.status 0#64 := rfl
@[simp] theorem State.raise_ru_wu (e : ErrorKind) (s : State) : (s.raise .ru e).wu = s.wu := rfl
@[simp] theorem State.raise_wu_ru (e : ErrorKind) (s : State) : (s.raise .wu e).ru = s.ru := rfl
@[simp] theorem State.raise_wu_wu (e : ErrorKind) (s : State) :
    (s.raise .wu e).wu = s.wu.respond e.status 0#64 := rfl
@[simp] theorem State.raise_turn (p : Port) (e : ErrorKind) (s : State) : (s.raise p e).turn = s.turn := by
  cases p <;> rfl

@[simp] theorem State.acceptReader_wu (l : List CmdWord) (s : State) : (s.acceptReader l).wu = s.wu := rfl
@[simp] theorem State.acceptReader_turn (l : List CmdWord) (s : State) : (s.acceptReader l).turn = s.turn := rfl
@[simp] theorem State.acceptReader_ru (l : List CmdWord) (s : State) :
    (s.acceptReader l).ru = { s.ru with cmds := l } := rfl
@[simp] theorem State.acceptWriter_ru (l : List CmdWord) (s : State) : (s.acceptWriter l).ru = s.ru := rfl
@[simp] theorem State.acceptWriter_turn (l : List CmdWord) (s : State) : (s.acceptWriter l).turn = s.turn := rfl
@[simp] theorem State.acceptWriter_wu (l : List CmdWord) (s : State) :
    (s.acceptWriter l).wu = { s.wu with cmds := l } := rfl

@[simp] theorem ErrorKind.status_outOfRange : ErrorKind.outOfRange.status = .outOfRange := rfl
@[simp] theorem ErrorKind.status_illegalCommand : ErrorKind.illegalCommand.status = .illegalCommand := rfl

/-! ## The payload packet -/

/-- What a payload-carrying command does, both ways: it waits, or it goes on with the packet's payload. -/
theorem State.withPayload_cases (c : PayloadCmd) (effect : List Byte → State → State) (s : State) :
    (takePacket s.wu.wstream = none ∧
        s.withPayload c effect = { s with wu := { s.wu with waiting := some c } }) ∨
      ∃ payload rest, takePacket s.wu.wstream = some (payload, rest) ∧
        s.withPayload c effect =
          effect payload { s with wu := { s.wu with wstream := rest, waiting := none } } := by
  unfold State.withPayload
  cases h : takePacket s.wu.wstream with
  | none => exact .inl ⟨rfl, rfl⟩
  | some x => exact .inr ⟨x.1, x.2, rfl, rfl⟩

theorem State.withPayload_some {c : PayloadCmd} {effect : List Byte → State → State} {s : State}
    {payload : List Byte} {rest : List Item} (h : takePacket s.wu.wstream = some (payload, rest)) :
    s.withPayload c effect = effect payload { s with wu := { s.wu with wstream := rest, waiting := none } } := by
  simp [State.withPayload, h]

theorem State.withPayload_none {c : PayloadCmd} {effect : List Byte → State → State} {s : State}
    (h : takePacket s.wu.wstream = none) :
    s.withPayload c effect = { s with wu := { s.wu with waiting := some c } } := by
  simp [State.withPayload, h]

end Sys2Proof.Machine
end

