-- ==== Sys2Proof/Laws/Frames.lean ====
section
/-! SUPPORT. What the runs of micro-steps leave alone, from any state: reading moves the reader's three registers only,
writing changes the writer's three registers and adds to the end of the sink only. -/

namespace Sys2Proof.Machine

/-- `q` is `r` with nothing but its three registers moved. -/
def Reader.Moved (r q : Reader) : Prop :=
  q = { r with cursor := q.cursor, currentByte := q.currentByte, bitMask := q.bitMask }

theorem Reader.Moved.refl (r : Reader) : r.Moved r := rfl

theorem Reader.Moved.trans {r q u : Reader} (h1 : r.Moved q) (h2 : q.Moved u) : r.Moved u := by
  unfold Reader.Moved at h1 h2 ⊢
  rw [h2, h1]

theorem Reader.Moved.source {r q : Reader} (h : r.Moved q) : q.source = r.source := by rw [h]
theorem Reader.Moved.srcLen {r q : Reader} (h : r.Moved q) : q.srcLen = r.srcLen := by rw [h]
theorem Reader.Moved.fib {r q : Reader} (h : r.Moved q) : q.fib = r.fib := by rw [h]
theorem Reader.Moved.ctl {r q : Reader} (h : r.Moved q) : q.ctl = r.ctl := by rw [h]
theorem Reader.Moved.cmds {r q : Reader} (h : r.Moved q) : q.cmds = r.cmds := by rw [h]
theorem Reader.Moved.rstream {r q : Reader} (h : r.Moved q) : q.rstream = r.rstream := by rw [h]
theorem Reader.Moved.responses {r q : Reader} (h : r.Moved q) : q.responses = r.responses := by rw [h]
theorem Reader.Moved.statusOut {r q : Reader} (h : r.Moved q) : q.statusOut = r.statusOut := by rw [h]
theorem Reader.Moved.draws {r q : Reader} (h : r.Moved q) : q.draws = r.draws := by rw [h]

theorem Reader.rdbit_moved (r : Reader) : r.Moved r.rdbit.2 := by
  unfold Reader.rdbit
  simp only
  split <;> rfl

theorem Reader.readBits_moved (n : Nat) (r : Reader) : r.Moved (r.readBits n).2 := by
  induction n generalizing r with
  | zero => exact .refl r
  | succ n ih => exact (r.rdbit_moved).trans (ih r.rdbit.2)

theorem Reader.shiftIn_moved (n : Nat) (v : Word) (r : Reader) : r.Moved (r.shiftIn n v).2 := by
  induction n generalizing v r with
  | zero => exact .refl r
  | succ n ih => exact (r.rdbit_moved).trans (ih _ r.rdbit.2)

theorem Reader.readBase2_moved (n : Nat) (r : Reader) : r.Moved (r.readBase2 n).2 := r.shiftIn_moved n 0#64

theorem Reader.readByte_moved (r : Reader) : r.Moved r.readByte.2 := r.readBase2_moved 8

theorem Reader.readBytes_moved (n : Nat) (r : Reader) : r.Moved (r.readBytes n).2 := by
  induction n generalizing r with
  | zero => exact .refl r
  | succ n ih => exact (r.readByte_moved).trans (ih r.readByte.2)

theorem Reader.readString_moved (fuel : Nat) (r : Reader) : r.Moved (r.readString fuel).2 := by
  induction fuel generalizing r with
  | zero => exact .refl r
  | succ fuel ih =>
    rw [Reader.readString]
    simp only
    split
    · exact r.readByte_moved
    · exact (r.readByte_moved).trans (ih r.readByte.2)

theorem Reader.fibDecode_moved {fuel : Nat} {f : FibRegs} {r : Reader} {x : Word × Reader}
    (h : r.fibDecode fuel f = some x) : r.Moved x.2 := by
  induction fuel generalizing f r with
  | zero => simp [Reader.fibDecode] at h
  | succ fuel ih =>
    rw [Reader.fibDecode] at h
    split at h
    · injection h with h; subst h; exact r.rdbit_moved
    · exact (r.rdbit_moved).trans (ih h)

/-- `q` is `w` with nothing but its three registers changed and bytes added at the end of its sink. -/
def Writer.Wrote (w q : Writer) : Prop :=
  q = { w with sink := q.sink, pendingByte := q.pendingByte, bitMask := q.bitMask, position := q.position } ∧
    w.sink <+: q.sink

theorem Writer.Wrote.refl (w : Writer) : w.Wrote w := ⟨rfl, List.prefix_refl _⟩

theorem Writer.Wrote.trans {w q u : Writer} (h1 : w.Wrote q) (h2 : q.Wrote u) : w.Wrote u := by
  refine ⟨?_, h1.2.trans h2.2⟩
  rw [h2.1, h1.1]

theorem Writer.Wrote.waiting {w q : Writer} (h : w.Wrote q) : q.waiting = w.waiting := by rw [h.1]
theorem Writer.Wrote.ctl {w q : Writer} (h : w.Wrote q) : q.ctl = w.ctl := by rw [h.1]
theorem Writer.Wrote.cmds {w q : Writer} (h : w.Wrote q) : q.cmds = w.cmds := by rw [h.1]
theorem Writer.Wrote.wstream {w q : Writer} (h : w.Wrote q) : q.wstream = w.wstream := by rw [h.1]
theorem Writer.Wrote.responses {w q : Writer} (h : w.Wrote q) : q.responses = w.responses := by rw [h.1]
theorem Writer.Wrote.statusOut {w q : Writer} (h : w.Wrote q) : q.statusOut = w.statusOut := by rw [h.1]
theorem Writer.Wrote.draws {w q : Writer} (h : w.Wrote q) : q.draws = w.draws := by rw [h.1]

theorem Writer.wrbit_wrote (b : Bool) (w : Writer) : w.Wrote (w.wrbit b) := by
  unfold Writer.wrbit
  simp only
  split
  · exact ⟨rfl, by simp⟩
  · exact ⟨rfl, List.prefix_refl _⟩

theorem Writer.writeBits_wrote (bits : List Bool) (w : Writer) : w.Wrote (w.writeBits bits) := by
  induction bits generalizing w with
  | nil => exact .refl w
  | cons b bs ih => exact (w.wrbit_wrote b).trans (ih _)

theorem Writer.emitBase2_wrote (v : Word) (n : Nat) (w : Writer) : w.Wrote (w.emitBase2 v n) := by
  induction n generalizing w with
  | zero => exact .refl w
  | succ n ih => exact (w.wrbit_wrote _).trans (ih _)

theorem Writer.writeByte_wrote (b : Byte) (w : Writer) : w.Wrote (w.writeByte b) := w.emitBase2_wrote _ 8

theorem Writer.writeBytes_wrote (bs : List Byte) (w : Writer) : w.Wrote (w.writeBytes bs) := by
  induction bs generalizing w with
  | nil => exact .refl w
  | cons b bs ih => exact (w.writeByte_wrote b).trans (ih _)

theorem Writer.writeString_wrote (bs : List Byte) (w : Writer) : w.Wrote (w.writeString bs) := by
  induction bs generalizing w with
  | nil => exact w.writeByte_wrote _
  | cons b bs ih =>
    rw [Writer.writeString]
    split
    · exact w.writeByte_wrote b
    · exact (w.writeByte_wrote b).trans (ih _)

theorem Writer.emitPending_wrote (w : Writer) : w.Wrote w.emitPending := ⟨rfl, by simp⟩

end Sys2Proof.Machine
end

