-- ==== Sys2Proof/Laws/Exec.lean ====
section
/-! SUPPORT. What a command can do, and what a step can do, said once: where a next state is answered, one of these cases
holds. -/

namespace Sys2Proof.Machine

/-! ## A reader command -/

/-- A reader command completes with its registers moved, or raises OutOfRange, or enters the loop of RDFIB for good. -/
inductive ReaderExec (s t : State) : Prop
  | completed (q : Reader) (items : List Byte) (value : Word) (moved : s.ru.Moved q)
      (eq : t = s.completeReader q items value)
  | raised (eq : t = s.raise .ru .outOfRange)
  | looping (eq : t = { s with ru := { s.ru with fib := some FibRegs.init } })

theorem exec_reader_cases {i : Instr} {s t : State} (hp : i.port = .ru) (h : exec i s = .next t) : ReaderExec s t := by
  cases i <;> simp only [Instr.port, reduceCtorEq] at hp <;>
    simp only [exec, execRdbit, execRdbits, execRdbyte, execRdbytes, execRdbuf, execRdb2, execRdstr, execRdfib] at h
  case rdbit => cases h; exact .completed _ _ _ s.ru.rdbit_moved rfl
  case rdbits => cases h; exact .completed _ _ _ (s.ru.readBits_moved _) rfl
  case rdbyte => cases h; exact .completed _ _ _ s.ru.readByte_moved rfl
  case rdbytes => cases h; exact .completed _ _ _ (s.ru.readBytes_moved _) rfl
  case rdbuf =>
    split at h <;> cases h
    · exact .raised rfl
    · exact .completed _ _ _ (s.ru.readBytes_moved _) rfl
  case rdb2 =>
    split at h <;> cases h
    · exact .completed _ _ _ (s.ru.readBase2_moved _) rfl
    · exact .raised rfl
  case rdstr => cases h; exact .completed _ _ _ (s.ru.readString_moved _) rfl
  case rdfib =>
    split at h
    · rename_i x hx
      cases h
      exact .completed _ _ _ (Reader.fibDecode_moved hx) rfl
    · cases h; exact .looping rfl

/-! ## A writer command -/

/-- A writer command that takes no packet completes or raises OutOfRange; one that takes a packet waits for it, or consumes
it and completes, or consumes it and raises OutOfRange. -/
inductive WriterExec (i : Instr) (s t : State) : Prop
  | completed (q : Writer) (noPacket : ∀ c : PayloadCmd, i ≠ c.instr) (wrote : s.wu.Wrote q) (eq : t = s.completeWriter q)
  | raised (noPacket : ∀ c : PayloadCmd, i ≠ c.instr) (eq : t = s.raise .wu .outOfRange)
  | waiting (c : PayloadCmd) (instr : i = c.instr) (none : takePacket s.wu.wstream = none)
      (eq : t = { s with wu := { s.wu with waiting := some c } })
  | completedWith (c : PayloadCmd) (instr : i = c.instr) (payload : List Byte) (rest : List Item) (q : Writer)
      (packet : takePacket s.wu.wstream = some (payload, rest))
      (wrote : Writer.Wrote { s.wu with wstream := rest, waiting := none } q) (eq : t = s.completeWriter q)
  | raisedWith (c : PayloadCmd) (instr : i = c.instr) (payload : List Byte) (rest : List Item)
      (packet : takePacket s.wu.wstream = some (payload, rest))
      (eq : t = { s with wu := { s.wu with wstream := rest, waiting := none }.respond .outOfRange 0#64 })

theorem exec_writer_cases {i : Instr} {s t : State} (hp : i.port = .wu) (h : exec i s = .next t) :
    WriterExec i s t := by
  cases i <;> simp only [Instr.port, reduceCtorEq] at hp <;>
    simp only [exec, execWrbit, execWrbits, execWrbyte, execWrbuf, execWrb2, execWrstr, execFlush, execFinish,
      execWrfibu, execWrfibs] at h
  case wrbits =>
    cases hs : takePacket s.wu.wstream with
    | none => rw [State.withPayload_none hs] at h; cases h; exact .waiting .wrbits rfl hs rfl
    | some x =>
      rw [State.withPayload_some hs] at h
      cases h
      exact .completedWith .wrbits rfl _ _ _ hs (Writer.writeBits_wrote _ _) rfl
  case wrstr =>
    cases hs : takePacket s.wu.wstream with
    | none => rw [State.withPayload_none hs] at h; cases h; exact .waiting .wrstr rfl hs rfl
    | some x =>
      rw [State.withPayload_some hs] at h
      cases h
      exact .completedWith .wrstr rfl _ _ _ hs (Writer.writeString_wrote _ _) rfl
  case wrbuf offset length =>
    cases hs : takePacket s.wu.wstream with
    | none => rw [State.withPayload_none hs] at h; cases h; exact .waiting (.wrbuf offset length) rfl hs rfl
    | some x =>
      rw [State.withPayload_some hs] at h
      split at h <;> cases h
      · exact .raisedWith (.wrbuf offset length) rfl _ _ hs rfl
      · exact .completedWith (.wrbuf offset length) rfl _ _ _ hs (Writer.writeBytes_wrote _ _) rfl
  case wrfibs =>
    split at h <;> cases h
    · exact .raised (by intro c; cases c <;> simp [PayloadCmd.instr]) rfl
    · exact .completed _ (by intro c; cases c <;> simp [PayloadCmd.instr]) (Writer.writeBits_wrote _ _) rfl
  case finish =>
    cases h
    refine .completed _ (by intro c; cases c <;> simp [PayloadCmd.instr]) ?_ rfl
    split
    · exact .refl _
    · exact Writer.emitPending_wrote _
  all_goals cases h
  case wrbit => exact .completed _ (by intro c; cases c <;> simp [PayloadCmd.instr]) (Writer.wrbit_wrote _ _) rfl
  case wrbyte => exact .completed _ (by intro c; cases c <;> simp [PayloadCmd.instr]) (Writer.writeByte_wrote _ _) rfl
  case wrb2 => exact .completed _ (by intro c; cases c <;> simp [PayloadCmd.instr]) (Writer.emitBase2_wrote _ _ _) rfl
  case wrfibu => exact .completed _ (by intro c; cases c <;> simp [PayloadCmd.instr]) (Writer.writeBits_wrote _ _) rfl
  case flush => exact .completed _ (by intro c; cases c <;> simp [PayloadCmd.instr]) (Writer.emitPending_wrote _) rfl

/-! ## A step -/

/-- RU's move: it serves a control action, or goes on with its RDFIB, or has nothing to do, or runs a command, or raises
IllegalCommand. -/
inductive ReaderMove (s t : State) : Prop
  | served (c : ReaderControl) (rest : List ReaderControl) (ctl : s.ru.ctl = c :: rest)
      (eq : t = { s with ru := Reader.serve c { s.ru with ctl := rest } })
  | looped (f : FibRegs) (ctl : s.ru.ctl = []) (fib : s.ru.fib = some f) (eq : t = s.continueFib f)
  | idle (ctl : s.ru.ctl = []) (fib : s.ru.fib = none) (cmds : s.ru.cmds = []) (eq : t = s)
  | ran (w : CmdWord) (rest : List CmdWord) (i : Instr) (ctl : s.ru.ctl = []) (fib : s.ru.fib = none)
      (cmds : s.ru.cmds = w :: rest) (port : i.port = .ru) (decoded : decode .ru w = .ok i)
      (eq : exec i (s.acceptReader rest) = .next t)
  | raised (w : CmdWord) (rest : List CmdWord) (e : DecodeError) (ctl : s.ru.ctl = []) (fib : s.ru.fib = none)
      (cmds : s.ru.cmds = w :: rest) (decoded : decode .ru w = .error e)
      (eq : t = (s.acceptReader rest).raise .ru .illegalCommand)

theorem stepReader_cases {s t : State} (h : stepReader s = .next t) : ReaderMove s t := by
  unfold stepReader at h
  split at h
  · rename_i c rest hc
    cases h
    exact .served c rest hc rfl
  · rename_i hc
    split at h
    · rename_i f hf
      cases h
      exact .looped f hc hf rfl
    · rename_i hf
      split at h
      · rename_i hq
        cases h
        exact .idle hc hf hq rfl
      · rename_i w rest hq
        split at h
        · rename_i i hd
          exact .ran w rest i hc hf hq (decode_ok_port hd) hd h
        · rename_i e hd
          cases h
          exact .raised w rest e hc hf hq hd rfl

/-- WU's move, in the same cases; a busy WU goes on with the command that waits for its packet. -/
inductive WriterMove (s t : State) : Prop
  | served (c : WriterControl) (rest : List WriterControl) (ctl : s.wu.ctl = c :: rest)
      (eq : t = { s with wu := Writer.serve c { s.wu with ctl := rest } })
  | resumed (c : PayloadCmd) (ctl : s.wu.ctl = []) (waiting : s.wu.waiting = some c) (eq : exec c.instr s = .next t)
  | idle (ctl : s.wu.ctl = []) (waiting : s.wu.waiting = none) (cmds : s.wu.cmds = []) (eq : t = s)
  | ran (w : CmdWord) (rest : List CmdWord) (i : Instr) (ctl : s.wu.ctl = []) (waiting : s.wu.waiting = none)
      (cmds : s.wu.cmds = w :: rest) (port : i.port = .wu) (decoded : decode .wu w = .ok i)
      (eq : exec i (s.acceptWriter rest) = .next t)
  | raised (w : CmdWord) (rest : List CmdWord) (e : DecodeError) (ctl : s.wu.ctl = []) (waiting : s.wu.waiting = none)
      (cmds : s.wu.cmds = w :: rest) (decoded : decode .wu w = .error e)
      (eq : t = (s.acceptWriter rest).raise .wu .illegalCommand)

theorem stepWriter_cases {s t : State} (h : stepWriter s = .next t) : WriterMove s t := by
  unfold stepWriter at h
  split at h
  · rename_i c rest hc
    cases h
    exact .served c rest hc rfl
  · rename_i hc
    split at h
    · rename_i c hw
      exact .resumed c hc hw h
    · rename_i hw
      split at h
      · rename_i hq
        cases h
        exact .idle hc hw hq rfl
      · rename_i w rest hq
        split at h
        · rename_i i hd
          exact .ran w rest i hc hw hq (decode_ok_port hd) hd h
        · rename_i e hd
          cases h
          exact .raised w rest e hc hw hq hd rfl

end Sys2Proof.Machine
end

