-- ==== Sys2Proof/Laws/Fib.lean ====
section
/-! SUPPORT. The parts of FibCode (43_fib_encoder.md R201): the number of data bits, the greedy walk, and the sum of the
weights of a bit string. -/

namespace Sys2Proof.Machine

theorem fibSum_append (i : Nat) (xs ys : List Bool) : fibSum i (xs ++ ys) = fibSum i xs + fibSum (i + xs.length) ys := by
  induction xs generalizing i with
  | nil => simp [fibSum]
  | cons x xs ih =>
    simp only [List.cons_append, fibSum, ih, List.length_cons]
    rw [show i + 1 + xs.length = i + (xs.length + 1) by omega]
    omega

@[simp] theorem fibWalk_length (i r : Nat) : (fibWalk i r).length = i := by
  induction i generalizing r with
  | zero => rfl
  | succ i ih => unfold fibWalk; split <;> simp [ih]

/-- The walk ends with remainder 0: its bits' weights sum to what it started from. -/
theorem fibWalk_sum {i r : Nat} (h : r < Nat.fib (i + 2)) : fibSum 0 (fibWalk i r) = r := by
  induction i generalizing r with
  | zero =>
    have : r = 0 := by simpa using h
    subst this
    rfl
  | succ i ih =>
    have hf : Nat.fib (i + 1 + 2) = Nat.fib (i + 1) + Nat.fib (i + 2) := Nat.fib_add_two
    have hm : Nat.fib (i + 1) ≤ Nat.fib (i + 2) := Nat.fib_mono (by omega)
    unfold fibWalk
    split
    · rw [fibSum_append, ih (by omega), fibWalk_length]
      simp [fibSum]
      omega
    · rw [fibSum_append, ih (by omega)]
      simp [fibSum]

theorem filter_range_length {p : Nat → Bool} {size n : Nat} (hn : n ≤ size) (below : ∀ j < n, p j = true)
    (above : ∀ j, n ≤ j → p j = false) : ((List.range size).filter p).length = n := by
  obtain ⟨m, rfl⟩ : ∃ m, size = n + m := ⟨size - n, by omega⟩
  rw [List.range_add, List.filter_append, List.filter_eq_self.mpr fun a ha => below a (List.mem_range.mp ha),
    List.filter_eq_nil_iff.mpr]
  · simp
  · intro a ha
    obtain ⟨b, _, rfl⟩ := List.mem_map.mp ha
    simp [above (n + b) (by omega)]

/-- `fibCount` is the number of Fibonacci numbers F(2), F(3), … that are at most a 64-bit value, at most 92. -/
theorem fibCount_spec {v : Nat} (h : v < 2 ^ 64) :
    (∀ j < fibCount v, Nat.fib (j + 2) ≤ v) ∧ v < Nat.fib (fibCount v + 2) ∧ fibCount v ≤ 92 := by
  have h94 : v < Nat.fib (92 + 2) := lt_of_lt_of_le h (by decide)
  have hex : ∃ n, v < Nat.fib (n + 2) := ⟨92, h94⟩
  have hcount : fibCount v = Nat.find hex := by
    apply filter_range_length
    · exact Nat.find_min' hex h94
    · intro j hj
      simpa using Nat.find_min hex hj
    · intro j hj
      have h1 : v < Nat.fib (Nat.find hex + 2) := Nat.find_spec hex
      have h2 : Nat.fib (Nat.find hex + 2) ≤ Nat.fib (j + 2) := Nat.fib_mono (by omega)
      simp only [decide_eq_false_iff_not, Nat.not_le]
      omega
  rw [hcount]
  exact ⟨fun j hj => by simpa using Nat.find_min hex hj, Nat.find_spec hex, Nat.find_min' hex h94⟩

end Sys2Proof.Machine
end

