-- ==== Sys2Proof/Laws/Memory.lean ====
section
/-! SUPPORT. The source space: its one form, what binding a byte sequence makes of it, and what a read of it gives. -/

namespace Sys2Proof.Machine

theorem Memory.wfFrom_mono {m : Memory} {a b : Nat} (hab : a ≤ b) (h : Memory.wfFrom b m = true) :
    Memory.wfFrom a m = true := by
  cases m with
  | nil => rfl
  | cons cell rest =>
    obtain ⟨x, v⟩ := cell
    simp only [Memory.wfFrom, Bool.and_eq_true, decide_eq_true_eq] at h ⊢
    exact ⟨⟨by omega, h.1.2⟩, h.2⟩

/-- Binding a byte sequence gives the canonical form. -/
theorem Memory.ofBytes_wfFrom (bs : List Byte) (a : Nat) : Memory.wfFrom a (Memory.ofBytes a bs) = true := by
  induction bs generalizing a with
  | nil => rfl
  | cons b bs ih =>
    unfold Memory.ofBytes
    split
    · exact Memory.wfFrom_mono (Nat.le_succ a) (ih (a + 1))
    · rename_i hb
      simp [Memory.wfFrom, hb, ih (a + 1)]

theorem Memory.ofBytes_wf (bs : List Byte) : Memory.wf (Memory.ofBytes 0 bs) = true := Memory.ofBytes_wfFrom bs 0

theorem Memory.ofBytes_bound (bs : List Byte) (a : Nat) :
    ∀ cell ∈ Memory.ofBytes a bs, a ≤ cell.1 ∧ cell.1 < a + bs.length := by
  induction bs generalizing a with
  | nil => intro cell h; simp [Memory.ofBytes] at h
  | cons b bs ih =>
    intro cell h
    simp only [Memory.ofBytes] at h
    simp only [List.length_cons]
    split at h
    · have := ih (a + 1) cell h; omega
    · rcases List.mem_cons.mp h with rfl | h
      · simp
      · have := ih (a + 1) cell h; omega

/-- An address below the canonical form's first one is not listed. -/
theorem Memory.read_of_lt {m : Memory} {a x : Nat} (h : Memory.wfFrom a m = true) (hx : x < a) :
    Memory.read m x = 0x00#8 := by
  induction m generalizing a with
  | nil => rfl
  | cons cell rest ih =>
    obtain ⟨y, v⟩ := cell
    simp only [Memory.wfFrom, Bool.and_eq_true, decide_eq_true_eq] at h
    have hy : y ≠ x := by omega
    simp only [Memory.read, hy, if_false]
    exact ih h.2 (by omega)

/-- A bound byte sequence reads back: the byte at offset `k`, 0x00 beyond its end. -/
theorem Memory.read_ofBytes (bs : List Byte) (a k : Nat) :
    Memory.read (Memory.ofBytes a bs) (a + k) = bs.getD k 0x00#8 := by
  induction bs generalizing a k with
  | nil => simp [Memory.ofBytes, Memory.read]
  | cons b bs ih =>
    cases k with
    | zero =>
      unfold Memory.ofBytes
      split
      · rename_i hb
        rw [Memory.read_of_lt (Memory.ofBytes_wfFrom bs (a + 1)) (by omega)]
        simp [hb]
      · simp [Memory.read]
    | succ k =>
      have e : a + (k + 1) = a + 1 + k := by omega
      unfold Memory.ofBytes
      split
      · rw [e, ih]; simp
      · have hne : a ≠ a + (k + 1) := by omega
        simp only [Memory.read, hne, if_false]
        rw [e, ih]; simp

/-- Two memories in the one form that read alike are equal. -/
theorem Memory.ext_of_wfFrom {m n : Memory} {a : Nat} (hm : Memory.wfFrom a m = true)
    (hn : Memory.wfFrom a n = true) (h : ∀ x, Memory.read m x = Memory.read n x) : m = n := by
  induction m generalizing n a with
  | nil =>
    cases n with
    | nil => rfl
    | cons cell rest =>
      obtain ⟨y, v⟩ := cell
      simp only [Memory.wfFrom, Bool.and_eq_true, decide_eq_true_eq] at hn
      exact absurd (by simpa [Memory.read] using (h y).symm) hn.1.2
  | cons cell rest ih =>
    obtain ⟨y, v⟩ := cell
    simp only [Memory.wfFrom, Bool.and_eq_true, decide_eq_true_eq] at hm
    cases n with
    | nil => exact absurd (by simpa [Memory.read] using h y) hm.1.2
    | cons cell' rest' =>
      obtain ⟨z, u⟩ := cell'
      simp only [Memory.wfFrom, Bool.and_eq_true, decide_eq_true_eq] at hn
      have hyz : y = z := by
        rcases Nat.lt_trichotomy y z with hlt | heq | hgt
        · have := h y
          simp only [Memory.read, if_true, Nat.ne_of_gt hlt, if_false] at this
          rw [Memory.read_of_lt hn.2 (by omega)] at this
          exact absurd this hm.1.2
        · exact heq
        · have := h z
          simp only [Memory.read, if_true, Nat.ne_of_gt hgt, if_false] at this
          rw [Memory.read_of_lt hm.2 (by omega)] at this
          exact absurd this.symm hn.1.2
      subst hyz
      have hv : v = u := by simpa [Memory.read] using h y
      subst hv
      congr 1
      refine ih hm.2 hn.2 fun x => ?_
      by_cases hx : y = x
      · subst hx
        rw [Memory.read_of_lt hm.2 (by omega), Memory.read_of_lt hn.2 (by omega)]
      · simpa [Memory.read, hx] using h x

end Sys2Proof.Machine
end

