-- ==== Sys2Proof/Laws/PerInstr.lean ====
section
/-! SUPPORT. One law per command, about its word. -/

namespace Sys2Proof.Laws.EncodedWord

/-- A command's word carries an opcode that the command's own port alone assigns (R101, R102): the other port rejects the
word by name, and the port chosen for an opcode-table row's word is the command's. -/
def Statement (i : Instr) : Prop :=
  portOfWord (encode i) = i.port ∧
    ∀ p : Port, p ≠ i.port → decode p (encode i) = .error (.unassignedOpcode p (CmdWord.op (encode i)))

theorem rdbit : Statement .rdbit := by
  refine ⟨by simp [portOfWord, encode, decodeWriter, Instr.port], fun p hp => ?_⟩
  cases p <;> simp_all [encode, decode, decodeWriter, Instr.port]

theorem rdbits (count : Nat) : Statement (.rdbits count) := by
  refine ⟨by simp [portOfWord, encode, decodeWriter, Instr.port], fun p hp => ?_⟩
  cases p <;> simp_all [encode, decode, decodeWriter, Instr.port]

theorem rdbyte : Statement .rdbyte := by
  refine ⟨by simp [portOfWord, encode, decodeWriter, Instr.port], fun p hp => ?_⟩
  cases p <;> simp_all [encode, decode, decodeWriter, Instr.port]

theorem rdbytes (count : Nat) : Statement (.rdbytes count) := by
  refine ⟨by simp [portOfWord, encode, decodeWriter, Instr.port], fun p hp => ?_⟩
  cases p <;> simp_all [encode, decode, decodeWriter, Instr.port]

theorem rdbuf (buflen offset length : Int) : Statement (.rdbuf buflen offset length) := by
  refine ⟨by simp [portOfWord, encode, decodeWriter, Instr.port], fun p hp => ?_⟩
  cases p <;> simp_all [encode, decode, decodeWriter, Instr.port]

theorem rdb2 (bitLength : Int) : Statement (.rdb2 bitLength) := by
  refine ⟨by simp [portOfWord, encode, decodeWriter, Instr.port], fun p hp => ?_⟩
  cases p <;> simp_all [encode, decode, decodeWriter, Instr.port]

theorem rdfib : Statement .rdfib := by
  refine ⟨by simp [portOfWord, encode, decodeWriter, Instr.port], fun p hp => ?_⟩
  cases p <;> simp_all [encode, decode, decodeWriter, Instr.port]

theorem rdstr : Statement .rdstr := by
  refine ⟨by simp [portOfWord, encode, decodeWriter, Instr.port], fun p hp => ?_⟩
  cases p <;> simp_all [encode, decode, decodeWriter, Instr.port]

theorem wrbit (bit : Bool) : Statement (.wrbit bit) := by
  refine ⟨by simp [portOfWord, encode, decodeWriter, Instr.port], fun p hp => ?_⟩
  cases p <;> simp_all [encode, decode, decodeReader, Instr.port]

theorem wrbits : Statement .wrbits := by
  refine ⟨by simp [portOfWord, encode, decodeWriter, Instr.port], fun p hp => ?_⟩
  cases p <;> simp_all [encode, decode, decodeReader, Instr.port]

theorem wrbyte (byte : Byte) : Statement (.wrbyte byte) := by
  refine ⟨by simp [portOfWord, encode, decodeWriter, Instr.port], fun p hp => ?_⟩
  cases p <;> simp_all [encode, decode, decodeReader, Instr.port]

theorem wrbuf (offset length : Int) : Statement (.wrbuf offset length) := by
  refine ⟨by simp [portOfWord, encode, decodeWriter, Instr.port], fun p hp => ?_⟩
  cases p <;> simp_all [encode, decode, decodeReader, Instr.port]

theorem wrb2 (value : Word) (bitLength : Int) : Statement (.wrb2 value bitLength) := by
  refine ⟨by simp [portOfWord, encode, decodeWriter, Instr.port], fun p hp => ?_⟩
  cases p <;> simp_all [encode, decode, decodeReader, Instr.port]

theorem wrfibu (value : Word) : Statement (.wrfibu value) := by
  refine ⟨by simp [portOfWord, encode, decodeWriter, Instr.port], fun p hp => ?_⟩
  cases p <;> simp_all [encode, decode, decodeReader, Instr.port]

theorem wrfibs (value : Int) : Statement (.wrfibs value) := by
  refine ⟨by simp [portOfWord, encode, decodeWriter, Instr.port], fun p hp => ?_⟩
  cases p <;> simp_all [encode, decode, decodeReader, Instr.port]

theorem wrstr : Statement .wrstr := by
  refine ⟨by simp [portOfWord, encode, decodeWriter, Instr.port], fun p hp => ?_⟩
  cases p <;> simp_all [encode, decode, decodeReader, Instr.port]

theorem flush : Statement .flush := by
  refine ⟨by simp [portOfWord, encode, decodeWriter, Instr.port], fun p hp => ?_⟩
  cases p <;> simp_all [encode, decode, decodeReader, Instr.port]

theorem finish : Statement .finish := by
  refine ⟨by simp [portOfWord, encode, decodeWriter, Instr.port], fun p hp => ?_⟩
  cases p <;> simp_all [encode, decode, decodeReader, Instr.port]

end Sys2Proof.Laws.EncodedWord
end

