-- ==== Sys2Proof/Laws/Reader.lean ====
section
/-! SUPPORT. The reader's micro-step and its runs, each in one lemma: from a reader that meets Reader.Ok, `n` micro-steps
return the next `n` stream bits and leave the reader advanced by `n` (10_state.md R25, 20_memory.md R67). -/

namespace Sys2Proof.Machine

/-! ## Masks -/

theorem oneHot_iff (m : Byte) : oneHot m = true ↔ m = 0x80#8 >>> maskIndex m ∧ maskIndex m < 8 := by
  revert m; decide

theorem maskIndex_shift {k : Nat} (h : k < 8) : maskIndex (0x80#8 >>> k) = k := by
  have : ∀ k : Fin 8, maskIndex (0x80#8 >>> k.val) = k.val := by decide
  exact this ⟨k, h⟩

theorem oneHot_shift {k : Nat} (h : k < 8) : oneHot (0x80#8 >>> k) = true := by
  have : ∀ k : Fin 8, oneHot (0x80#8 >>> k.val) = true := by decide
  exact this ⟨k, h⟩

theorem bit_under_mask (b : Byte) {k : Nat} (h : k < 8) :
    decide (b &&& (0x80#8 >>> k) ≠ 0x00#8) = b.getLsbD (7 - k) := by
  have : ∀ k : Fin 8, ∀ b : Byte, decide (b &&& (0x80#8 >>> k.val) ≠ 0x00#8) = b.getLsbD (7 - k.val) := by decide
  exact this ⟨k, h⟩ b

theorem shift_last {k : Nat} (h : k < 8) : (0x80#8 >>> k) >>> 1 = 0x00#8 ↔ k = 7 := by
  have : ∀ k : Fin 8, (0x80#8 >>> k.val) >>> 1 = 0x00#8 ↔ k.val = 7 := by decide
  exact this ⟨k, h⟩

/-! ## Bits of a byte -/

theorem packByte_byteBits (b : Byte) : packByte 8 (byteBits b) = b := by
  revert b; decide

theorem byteBits_length (b : Byte) : (byteBits b).length = 8 := by simp [byteBits]

theorem bytesBits_nil : bytesBits [] = [] := rfl

theorem bytesBits_cons (b : Byte) (bs : List Byte) : bytesBits (b :: bs) = byteBits b ++ bytesBits bs := rfl

theorem bytesBits_append (xs ys : List Byte) : bytesBits (xs ++ ys) = bytesBits xs ++ bytesBits ys := by
  simp [bytesBits]

theorem bytesBits_length (bs : List Byte) : (bytesBits bs).length = 8 * bs.length := by
  induction bs with
  | nil => rfl
  | cons b bs ih => rw [bytesBits_cons, List.length_append, byteBits_length, ih, List.length_cons]; ring

theorem byteBits_packByte {a b c d e f g h : Bool} :
    byteBits (packByte 8 [a, b, c, d, e, f, g, h]) = [a, b, c, d, e, f, g, h] := by
  revert a b c d e f g h; decide

/-! ## Advancing -/

theorem Reader.fetch_congr {r q : Reader} (hs : r.source = q.source) (hl : r.srcLen = q.srcLen) (c : Word) :
    r.fetch c = q.fetch c := by
  simp [Reader.fetch, hs, hl]

/-- A byte of the source as `Fetch` gives it, bit by bit. -/
theorem Reader.fetch_getLsbD (r : Reader) (c : Word) {k : Nat} (h : k < 8) :
    (r.fetch c).getLsbD (7 - k) = r.streamBit (8 * c.toNat + k) := by
  have h1 : (8 * c.toNat + k) / 8 = c.toNat := by omega
  have h2 : (8 * c.toNat + k) % 8 = k := by omega
  unfold Reader.fetch Reader.streamBit
  rw [h1, h2]
  simp only [BitVec.lt_def]
  split <;> simp

/-- From `8 × srcLen` on every stream bit is 0 (R54, R67). -/
theorem Reader.streamBit_past {r : Reader} {k : Nat} (h : 8 * r.srcLen.toNat ≤ k) : r.streamBit k = false := by
  unfold Reader.streamBit
  rw [if_neg (by omega)]

theorem Reader.advance_source (n : Nat) (r : Reader) : (r.advance n).source = r.source := rfl
theorem Reader.advance_srcLen (n : Nat) (r : Reader) : (r.advance n).srcLen = r.srcLen := rfl
theorem Reader.advance_rstream (n : Nat) (r : Reader) : (r.advance n).rstream = r.rstream := rfl
theorem Reader.advance_responses (n : Nat) (r : Reader) : (r.advance n).responses = r.responses := rfl
theorem Reader.advance_cmds (n : Nat) (r : Reader) : (r.advance n).cmds = r.cmds := rfl
theorem Reader.advance_ctl (n : Nat) (r : Reader) : (r.advance n).ctl = r.ctl := rfl
theorem Reader.advance_fib (n : Nat) (r : Reader) : (r.advance n).fib = r.fib := rfl
theorem Reader.advance_statusOut (n : Nat) (r : Reader) : (r.advance n).statusOut = r.statusOut := rfl
theorem Reader.advance_draws (n : Nat) (r : Reader) : (r.advance n).draws = r.draws := rfl

theorem Reader.streamBit_advance (n k : Nat) (r : Reader) : (r.advance n).streamBit k = r.streamBit k := rfl

theorem Reader.streamBits_advance (n k m : Nat) (r : Reader) : (r.advance n).streamBits k m = r.streamBits k m := rfl

theorem Reader.advance_bitMask (n : Nat) (r : Reader) :
    (r.advance n).bitMask = 0x80#8 >>> ((maskIndex r.bitMask + n) % 8) := rfl

theorem Reader.advance_cursor_toNat (n : Nat) (r : Reader) :
    (r.advance n).cursor.toNat = min (r.cursor.toNat + (maskIndex r.bitMask + n) / 8) (2 ^ 64 - 1) := by
  unfold Reader.advance
  simp only [BitVec.toNat_ofNat]
  apply Nat.mod_eq_of_lt
  omega

theorem Reader.advance_maskIndex (n : Nat) (r : Reader) :
    maskIndex (r.advance n).bitMask = (maskIndex r.bitMask + n) % 8 := by
  rw [Reader.advance_bitMask, maskIndex_shift (Nat.mod_lt _ (by decide))]

theorem Reader.advance_ok {r : Reader} (h : r.Ok) (n : Nat) : (r.advance n).Ok :=
  ⟨by rw [Reader.advance_bitMask]; exact oneHot_shift (Nat.mod_lt _ (by decide)), rfl, h.2.2.1, h.2.2.2⟩

theorem Reader.advance_zero {r : Reader} (h : r.Ok) : r.advance 0 = r := by
  obtain ⟨h1, h2⟩ := (oneHot_iff r.bitMask).mp h.1
  have hc : BitVec.ofNat 64 (min (r.cursor.toNat + (maskIndex r.bitMask + 0) / 8) (2 ^ 64 - 1)) = r.cursor := by
    apply BitVec.eq_of_toNat_eq
    have := r.cursor.isLt
    rw [BitVec.toNat_ofNat, Nat.mod_eq_of_lt (by omega)]
    omega
  have hm : 0x80#8 >>> ((maskIndex r.bitMask + 0) % 8) = r.bitMask := by
    rw [Nat.add_zero, Nat.mod_eq_of_lt h2, ← h1]
  unfold Reader.advance
  simp only [hc, hm, ← h.2.1]

theorem Reader.advance_add (r : Reader) (m n : Nat) : (r.advance m).advance n = r.advance (m + n) := by
  have hx := Reader.advance_maskIndex m r
  have hcur := Reader.advance_cursor_toNat m r
  have hc : BitVec.ofNat 64 (min ((r.advance m).cursor.toNat + (maskIndex (r.advance m).bitMask + n) / 8) (2 ^ 64 - 1))
      = BitVec.ofNat 64 (min (r.cursor.toNat + (maskIndex r.bitMask + (m + n)) / 8) (2 ^ 64 - 1)) := by
    congr 1
    rw [hx, hcur]
    omega
  have hm : (maskIndex (r.advance m).bitMask + n) % 8 = (maskIndex r.bitMask + (m + n)) % 8 := by
    rw [hx]; omega
  rw [Reader.advance.eq_1 n (r.advance m), Reader.advance.eq_1 (m + n) r]
  simp only [hc, hm]
  rfl

/-- The stream position advances by `n`, until the cursor saturates (R22, R25). -/
theorem Reader.advance_bitpos {r : Reader} {n : Nat} (h : r.bitpos + n < 2 ^ 67) :
    (r.advance n).bitpos = r.bitpos + n := by
  unfold Reader.bitpos at h ⊢
  rw [Reader.advance_cursor_toNat, Reader.advance_maskIndex]
  omega

/-- The bits ahead of the advanced reader are those ahead of the reader from `n` bits on, also where the cursor has
saturated: there both are past the end. -/
theorem Reader.streamBit_bitpos_advance (r : Reader) (n j : Nat) :
    r.streamBit ((r.advance n).bitpos + j) = r.streamBit (r.bitpos + (n + j)) := by
  have hl := r.srcLen.isLt
  by_cases h : r.bitpos + n < 2 ^ 67
  · rw [Reader.advance_bitpos h, Nat.add_assoc]
  · have h1 : (r.advance n).bitpos = 8 * (2 ^ 64 - 1) + (maskIndex r.bitMask + n) % 8 := by
      unfold Reader.bitpos at h ⊢
      rw [Reader.advance_cursor_toNat, Reader.advance_maskIndex]
      omega
    rw [Reader.streamBit_past (by omega), Reader.streamBit_past (by omega)]

/-! ## The micro-step -/

theorem nextCursor_toNat (c : Word) : (nextCursor c).toNat = min (c.toNat + 1) (2 ^ 64 - 1) := by
  have hc := c.isLt
  unfold nextCursor
  split
  · rename_i h; subst h; decide
  · rename_i h
    have hne : c.toNat ≠ 2 ^ 64 - 1 := fun e => h (BitVec.eq_of_toNat_eq (by rw [e]; decide))
    rw [BitVec.toNat_add]
    simp only [BitVec.toNat_ofNat]
    omega

/-- RDBIT returns the next stream bit and advances by one (R25, R67, R120). -/
theorem Reader.rdbit_eq {r : Reader} (h : r.Ok) : r.rdbit = (r.streamBit r.bitpos, r.advance 1) := by
  obtain ⟨h1, h2⟩ := (oneHot_iff r.bitMask).mp h.1
  have hbit : decide (r.currentByte &&& r.bitMask ≠ 0x00#8) = r.streamBit r.bitpos := by
    conv_lhs => rw [h1]
    rw [bit_under_mask _ h2, h.2.1, Reader.fetch_getLsbD _ _ h2]
    rfl
  have hlast : r.bitMask >>> 1 = 0x00#8 ↔ maskIndex r.bitMask = 7 := by
    conv_lhs => rw [h1]
    exact shift_last h2
  unfold Reader.rdbit
  simp only [hbit]
  split
  · rename_i hm
    have hk := hlast.mp hm
    have hc : nextCursor r.cursor
        = BitVec.ofNat 64 (min (r.cursor.toNat + (maskIndex r.bitMask + 1) / 8) (2 ^ 64 - 1)) := by
      apply BitVec.eq_of_toNat_eq
      have := r.cursor.isLt
      rw [nextCursor_toNat, BitVec.toNat_ofNat, Nat.mod_eq_of_lt (by omega), hk]
    have hs : 0x80#8 >>> ((maskIndex r.bitMask + 1) % 8) = 0x80#8 := by rw [hk]; decide
    simp only [Reader.advance, ← hc, hs]
  · rename_i hm
    have hk : maskIndex r.bitMask ≠ 7 := fun e => hm (hlast.mpr e)
    have hc : BitVec.ofNat 64 (min (r.cursor.toNat + (maskIndex r.bitMask + 1) / 8) (2 ^ 64 - 1)) = r.cursor := by
      apply BitVec.eq_of_toNat_eq
      have := r.cursor.isLt
      rw [BitVec.toNat_ofNat, Nat.mod_eq_of_lt (by omega)]
      omega
    have hs : 0x80#8 >>> ((maskIndex r.bitMask + 1) % 8) = r.bitMask >>> 1 := by
      conv_rhs => rw [h1]
      rw [← BitVec.shiftRight_add, Nat.mod_eq_of_lt (by omega)]
    simp only [Reader.advance, hc, hs, ← h.2.1]

/-! ## Runs of micro-steps -/

theorem Reader.streamBits_zero (r : Reader) (k : Nat) : r.streamBits k 0 = [] := rfl

theorem Reader.streamBits_length (r : Reader) (k n : Nat) : (r.streamBits k n).length = n := by
  simp [Reader.streamBits]

theorem Reader.streamBits_succ (r : Reader) (k n : Nat) :
    r.streamBits k (n + 1) = r.streamBit k :: r.streamBits (k + 1) n := by
  unfold Reader.streamBits
  rw [List.range_succ_eq_map, List.map_cons, List.map_map]
  simp only [Nat.add_zero, List.cons.injEq, true_and]
  apply List.map_congr_left
  intro j _
  simp only [Function.comp, Nat.succ_eq_add_one]
  congr 1
  omega

theorem Reader.streamBits_add (r : Reader) (k m n : Nat) :
    r.streamBits k (m + n) = r.streamBits k m ++ r.streamBits (k + m) n := by
  induction m generalizing k with
  | zero => simp [Reader.streamBits_zero]
  | succ m ih =>
    rw [show m + 1 + n = (m + n) + 1 by omega, Reader.streamBits_succ, ih, Reader.streamBits_succ,
      show k + 1 + m = k + (m + 1) by omega]
    rfl

/-- The bits ahead of the advanced reader. -/
theorem Reader.streamBits_bitpos_advance (r : Reader) (n m : Nat) :
    (r.advance n).streamBits (r.advance n).bitpos m = r.streamBits (r.bitpos + n) m := by
  rw [Reader.streamBits_advance]
  unfold Reader.streamBits
  apply List.map_congr_left
  intro j _
  rw [Reader.streamBit_bitpos_advance r n j, Nat.add_assoc]

theorem Reader.streamByte_bitpos_advance (r : Reader) (n : Nat) :
    (r.advance n).streamByte (r.advance n).bitpos = r.streamByte (r.bitpos + n) := by
  unfold Reader.streamByte
  rw [Reader.streamBits_bitpos_advance]

/-- `n` micro-steps return the next `n` stream bits (R67, R122). -/
theorem Reader.readBits_eq {r : Reader} (h : r.Ok) (n : Nat) :
    r.readBits n = (r.streamBits r.bitpos n, r.advance n) := by
  induction n generalizing r with
  | zero => simp [Reader.readBits, Reader.streamBits_zero, Reader.advance_zero h]
  | succ n ih =>
    simp only [Reader.readBits, Reader.rdbit_eq h, ih (Reader.advance_ok h 1)]
    rw [Reader.streamBits_bitpos_advance, Reader.advance_add, Reader.streamBits_succ, Nat.add_comm 1 n]

/-- The value of a bit string grows by its next bit on the right. -/
theorem bitsValue_concat (bs : List Bool) (b : Bool) : bitsValue (bs ++ [b]) = 2 * bitsValue bs + b.toNat := by
  simp [bitsValue]

theorem bitsValue_lt (bs : List Bool) : bitsValue bs < 2 ^ bs.length := by
  induction bs using List.reverseRecOn with
  | nil => simp [bitsValue]
  | append_singleton bs b ih =>
    rw [bitsValue_concat, List.length_append, List.length_singleton, pow_succ]
    have : b.toNat ≤ 1 := by cases b <;> simp
    omega

/-- The shift accumulator's one step, as arithmetic modulo 2^64. -/
theorem shift_or_bit (v : Word) (b : Bool) : (v <<< 1) ||| zextBit b = BitVec.ofNat 64 (2 * v.toNat + b.toNat) := by
  have h0 : (v <<< 1) &&& zextBit b = 0#64 := by
    apply BitVec.eq_of_getLsbD_eq
    intro i hi
    cases b
    · simp [zextBit]
    · by_cases h : i = 0
      · subst h; simp
      · simp [zextBit, BitVec.getLsbD_one, h]
  rw [← BitVec.add_eq_or_of_and_eq_zero _ _ h0]
  apply BitVec.eq_of_toNat_eq
  rw [BitVec.toNat_add, BitVec.toNat_shiftLeft, BitVec.toNat_ofNat, Nat.shiftLeft_eq]
  cases b <;> simp [zextBit] <;> omega

/-- The accumulator of ReadBase2 after `n` bits: the bits so far as a number, modulo 2^64 (R126). -/
theorem Reader.shiftIn_eq {r : Reader} (h : r.Ok) (n : Nat) (pre : List Bool) :
    r.shiftIn n (BitVec.ofNat 64 (bitsValue pre))
      = (BitVec.ofNat 64 (bitsValue (pre ++ r.streamBits r.bitpos n)), r.advance n) := by
  induction n generalizing r pre with
  | zero => simp [Reader.shiftIn, Reader.streamBits_zero, Reader.advance_zero h]
  | succ n ih =>
    have hv : ((BitVec.ofNat 64 (bitsValue pre)) <<< 1) ||| zextBit (r.streamBit r.bitpos)
        = BitVec.ofNat 64 (bitsValue (pre ++ [r.streamBit r.bitpos])) := by
      rw [shift_or_bit, bitsValue_concat]
      apply BitVec.eq_of_toNat_eq
      simp only [BitVec.toNat_ofNat]
      omega
    simp only [Reader.shiftIn, Reader.rdbit_eq h, hv]
    rw [ih (Reader.advance_ok h 1), Reader.streamBits_bitpos_advance, Reader.advance_add,
      Reader.streamBits_succ, Nat.add_comm 1 n, List.append_assoc]
    rfl

/-- ReadBase2 (R126): the next `n` stream bits as a number. -/
theorem Reader.readBase2_eq {r : Reader} (h : r.Ok) (n : Nat) :
    r.readBase2 n = (BitVec.ofNat 64 (bitsValue (r.streamBits r.bitpos n)), r.advance n) := by
  have := Reader.shiftIn_eq h n []
  simpa [Reader.readBase2, bitsValue] using this

theorem packByte_bitsValue {a b c d e f g h : Bool} :
    BitVec.ofNat 8 (bitsValue [a, b, c, d, e, f, g, h]) = packByte 8 [a, b, c, d, e, f, g, h] := by
  revert a b c d e f g h; decide

theorem exists_of_length_eight {l : List Bool} (hl : l.length = 8) :
    ∃ a b c d e f g h, l = [a, b, c, d, e, f, g, h] := by
  match l, hl with
  | [a, b, c, d, e, f, g, h], _ => exact ⟨a, b, c, d, e, f, g, h, rfl⟩

/-- One byte: the next 8 stream bits (R123). -/
theorem Reader.readByte_eq {r : Reader} (h : r.Ok) : r.readByte = (r.streamByte r.bitpos, r.advance 8) := by
  simp only [Reader.readByte, Reader.readBase2_eq h, Reader.streamByte]
  obtain ⟨a, b, c, d, e, f, g, i, hl⟩ := exists_of_length_eight (Reader.streamBits_length r r.bitpos 8)
  rw [hl, ← packByte_bitsValue]
  congr 1
  apply BitVec.eq_of_toNat_eq
  simp only [BitVec.extractLsb'_toNat, BitVec.toNat_ofNat, Nat.shiftRight_zero]
  omega

/-- `n` bytes: the next `8 n` stream bits, byte by byte (R124). -/
theorem Reader.readBytes_eq {r : Reader} (h : r.Ok) (n : Nat) :
    r.readBytes n = ((List.range n).map fun j => r.streamByte (r.bitpos + 8 * j), r.advance (8 * n)) := by
  induction n generalizing r with
  | zero => simp [Reader.readBytes, Reader.advance_zero h]
  | succ n ih =>
    simp only [Reader.readBytes, Reader.readByte_eq h, ih (Reader.advance_ok h 8)]
    rw [Reader.advance_add, List.range_succ_eq_map, List.map_cons, List.map_map, show 8 + 8 * n = 8 * (n + 1) by omega]
    congr 1
    simp only [Nat.mul_zero, Nat.add_zero, List.cons.injEq, true_and]
    apply List.map_congr_left
    intro j _
    simp only [Function.comp, Reader.streamByte, Reader.streamBits_advance]
    congr 1
    unfold Reader.streamBits
    apply List.map_congr_left
    intro i _
    rw [Nat.add_assoc, Reader.streamBit_bitpos_advance]
    congr 1
    omega

end Sys2Proof.Machine
end

