-- ==== Sys2Proof/Laws/ReaderLoops.lean ====
section
/-! SUPPORT. The reader's two loops with data-dependent length: the byte loop of RDSTR (40_bit_reader.md R129) and the bit
loop of RDFIB (41_fib_decoder.md R150, R152, R155). -/

namespace Sys2Proof.Machine

/-! ## RDSTR -/

theorem Reader.streamBits_past {r : Reader} {k : Nat} (h : 8 * r.srcLen.toNat ≤ k) (n : Nat) :
    r.streamBits k n = List.replicate n false := by
  apply List.ext_getElem
  · simp [Reader.streamBits]
  · intro i h1 h2
    simp [Reader.streamBits, Reader.streamBit_past (show 8 * r.srcLen.toNat ≤ k + i by omega)]

theorem Reader.streamByte_past {r : Reader} {k : Nat} (h : 8 * r.srcLen.toNat ≤ k) : r.streamByte k = 0x00#8 := by
  unfold Reader.streamByte
  rw [Reader.streamBits_past h]
  decide

/-- The byte loop stops at the first zero byte, which is consumed and left out (R129). -/
theorem Reader.readString_eq {r : Reader} (h : r.Ok) {k fuel : Nat} (hf : k < fuel)
    (hnz : ∀ j < k, r.streamByte (r.bitpos + 8 * j) ≠ 0x00#8) (hz : r.streamByte (r.bitpos + 8 * k) = 0x00#8) :
    r.readString fuel
      = ((List.range k).map fun j => r.streamByte (r.bitpos + 8 * j), r.advance (8 * (k + 1))) := by
  induction k generalizing r fuel with
  | zero =>
    obtain ⟨fuel, rfl⟩ : ∃ m, fuel = m + 1 := ⟨fuel - 1, by omega⟩
    have hz' : r.streamByte r.bitpos = 0x00#8 := by simpa using hz
    simp [Reader.readString, Reader.readByte_eq h, hz']
  | succ k ih =>
    obtain ⟨fuel, rfl⟩ : ∃ m, fuel = m + 1 := ⟨fuel - 1, by omega⟩
    have h0 : r.streamByte r.bitpos ≠ 0x00#8 := by simpa using hnz 0 (by omega)
    have hshift : ∀ j, (r.advance 8).streamByte ((r.advance 8).bitpos + 8 * j)
        = r.streamByte (r.bitpos + 8 * (j + 1)) := by
      intro j
      unfold Reader.streamByte
      rw [Reader.streamBits_advance]
      congr 1
      unfold Reader.streamBits
      apply List.map_congr_left
      intro i _
      rw [Nat.add_assoc, Reader.streamBit_bitpos_advance]
      congr 1
      omega
    simp only [Reader.readString, Reader.readByte_eq h, h0, if_false]
    rw [ih (Reader.advance_ok h 8) (by omega) (fun j hj => by rw [hshift]; exact hnz (j + 1) (by omega))
      (by rw [hshift]; exact hz)]
    rw [Reader.advance_add, show 8 + 8 * (k + 1) = 8 * (k + 1 + 1) by omega, List.range_succ_eq_map,
      List.map_cons, List.map_map]
    congr 1
    simp only [Nat.mul_zero, Nat.add_zero, List.cons.injEq, true_and]
    apply List.map_congr_left
    intro j _
    exact hshift j

/-- The fuel of RDSTR suffices: a zero byte lies within it (R129). -/
theorem Reader.zero_within_fuel (r : Reader) :
    ∃ k < r.stringFuel, r.streamByte (r.bitpos + 8 * k) = 0x00#8 := by
  refine ⟨r.stringFuel - 1, by simp [Reader.stringFuel], Reader.streamByte_past ?_⟩
  unfold Reader.stringFuel Reader.bitpos
  omega

/-- The first zero byte from the current position. -/
theorem Reader.exists_first_zero (r : Reader) :
    ∃ k < r.stringFuel, (∀ j < k, r.streamByte (r.bitpos + 8 * j) ≠ 0x00#8) ∧
      r.streamByte (r.bitpos + 8 * k) = 0x00#8 := by
  classical
  obtain ⟨m, hm, hz⟩ := r.zero_within_fuel
  let P : Nat → Prop := fun k => r.streamByte (r.bitpos + 8 * k) = 0x00#8
  have hP : ∃ k, P k := ⟨m, hz⟩
  exact ⟨Nat.find hP, lt_of_le_of_lt (Nat.find_min' hP hz) hm, fun j hj => Nat.find_min hP hj, Nat.find_spec hP⟩

/-! ## RDFIB -/

/-- The bit before index `j` of the codeword being read: `last` at the start, then the bits themselves. -/
def Reader.bitBefore (r : Reader) (f : FibRegs) : Nat → Bool
  | 0 => f.last
  | j + 1 => r.streamBit (r.bitpos + j)

theorem Reader.bitBefore_advance (r : Reader) (f : FibRegs) (j : Nat) :
    (r.advance 1).bitBefore (f.advance (r.streamBit r.bitpos)) j = r.bitBefore f (j + 1) := by
  cases j with
  | zero => simp [Reader.bitBefore, FibRegs.advance]
  | succ j =>
    simp only [Reader.bitBefore, Reader.streamBit_advance]
    rw [Reader.streamBit_bitpos_advance, Nat.add_comm 1 j]

theorem Reader.streamBit_after_one (r : Reader) (j : Nat) :
    (r.advance 1).streamBit ((r.advance 1).bitpos + j) = r.streamBit (r.bitpos + (j + 1)) := by
  rw [Reader.streamBit_advance, Reader.streamBit_bitpos_advance, Nat.add_comm 1 j]

/-- The loop of R150 meets its terminator at index `t` and consumes `t + 1` bits (R152). -/
theorem Reader.fibDecode_terminated {r : Reader} (h : r.Ok) {f : FibRegs} {t fuel : Nat} (hf : t < fuel)
    (hno : ∀ j < t, ¬ (r.streamBit (r.bitpos + j) = true ∧ r.bitBefore f j = true))
    (ht : r.streamBit (r.bitpos + t) = true ∧ r.bitBefore f t = true) :
    r.fibDecode fuel f
      = some (((r.streamBits r.bitpos t).foldl (fun f b => f.advance b) f).acc, r.advance (t + 1)) := by
  induction t generalizing r f fuel with
  | zero =>
    obtain ⟨fuel, rfl⟩ : ∃ m, fuel = m + 1 := ⟨fuel - 1, by omega⟩
    have hb : r.streamBit r.bitpos = true := by simpa using ht.1
    have hl : f.last = true := by simpa [Reader.bitBefore] using ht.2
    simp [Reader.fibDecode, Reader.rdbit_eq h, FibRegs.terminatedBy, hb, hl, Reader.streamBits_zero]
  | succ t ih =>
    obtain ⟨fuel, rfl⟩ : ∃ m, fuel = m + 1 := ⟨fuel - 1, by omega⟩
    have h0 := hno 0 (by omega)
    have hterm : f.terminatedBy (r.streamBit r.bitpos) = false := by
      simp only [Reader.bitBefore, Nat.add_zero] at h0
      unfold FibRegs.terminatedBy
      revert h0
      cases r.streamBit r.bitpos <;> cases f.last <;> simp
    simp only [Reader.fibDecode, Reader.rdbit_eq h, hterm, Bool.false_eq_true, if_false]
    rw [ih (Reader.advance_ok h 1) (by omega)
      (fun j hj => by
        rw [Reader.streamBit_after_one, Reader.bitBefore_advance]
        exact hno (j + 1) (by omega))
      (by rw [Reader.streamBit_after_one, Reader.bitBefore_advance]; exact ht)]
    rw [Reader.advance_add, Reader.streamBits_bitpos_advance, Reader.streamBits_succ, Nat.add_comm 1 (t + 1)]
    rfl

/-- The loop of R150 meets no terminator within its fuel when no two adjacent 1 bits lie there (R155). -/
theorem Reader.fibDecode_unterminated {r : Reader} (h : r.Ok) {f : FibRegs} {fuel : Nat}
    (hno : ∀ j < fuel, ¬ (r.streamBit (r.bitpos + j) = true ∧ r.bitBefore f j = true)) :
    r.fibDecode fuel f = none := by
  induction fuel generalizing r f with
  | zero => rfl
  | succ fuel ih =>
    have h0 := hno 0 (by omega)
    have hterm : f.terminatedBy (r.streamBit r.bitpos) = false := by
      simp only [Reader.bitBefore, Nat.add_zero] at h0
      unfold FibRegs.terminatedBy
      revert h0
      cases r.streamBit r.bitpos <;> cases f.last <;> simp
    simp only [Reader.fibDecode, Reader.rdbit_eq h, hterm, Bool.false_eq_true, if_false]
    apply ih (Reader.advance_ok h 1)
    intro j hj
    rw [Reader.streamBit_after_one, Reader.bitBefore_advance]
    exact hno (j + 1) (by omega)

/-- A 1 bit ahead lies within the fuel of RDFIB (R54: past the end every bit is 0). -/
theorem Reader.bit_within_fuel {r : Reader} {t : Nat} (ht : r.streamBit (r.bitpos + t) = true) : t < r.fibFuel := by
  have : ¬ 8 * r.srcLen.toNat ≤ r.bitpos + t := fun hle => by
    rw [Reader.streamBit_past hle] at ht
    exact absurd ht (by decide)
  unfold Reader.fibFuel
  unfold Reader.bitpos at this
  omega

/-- The working registers after a run of bits met at iteration `i`: the pair is `(F(i), F(i+1))` and the accumulator the
weights of the 1 bits, modulo 2^64 (R150, R153). -/
theorem FibRegs.foldl_advance_acc (bits : List Bool) (i : Nat) (f : FibRegs)
    (ha : f.fa = BitVec.ofNat 64 (Nat.fib i)) (hb : f.fb = BitVec.ofNat 64 (Nat.fib (i + 1))) :
    (bits.foldl (fun f b => f.advance b) f).acc = f.acc + BitVec.ofNat 64 (fibSum i bits) := by
  induction bits generalizing i f with
  | nil => simp [fibSum]
  | cons b bs ih =>
    have hw : f.fa + f.fb = BitVec.ofNat 64 (Nat.fib (i + 2)) := by
      rw [ha, hb, Nat.fib_add_two, BitVec.ofNat_add]
    rw [List.foldl_cons, ih (i + 1) (f.advance b) (by simp [FibRegs.advance, hb]) (by simp [FibRegs.advance, hw])]
    cases b
    · simp [FibRegs.advance, fibSum]
    · simp [FibRegs.advance, fibSum, hw, BitVec.ofNat_add, BitVec.add_assoc]

theorem FibRegs.init_acc (bits : List Bool) :
    (bits.foldl (fun f b => f.advance b) FibRegs.init).acc = BitVec.ofNat 64 (fibSum 0 bits) := by
  rw [FibRegs.foldl_advance_acc bits 0 FibRegs.init (by simp [FibRegs.init]) (by simp [FibRegs.init])]
  simp [FibRegs.init]

end Sys2Proof.Machine
end

