-- ==== Sys2Proof/Laws/Writer.lean ====
section
/-! SUPPORT. The writer's micro-step and its runs, each in one lemma: from a writer that meets Writer.Ok, micro-steps with
a list of bits append those bits to the stream (20_memory.md R66, 42_bit_writer.md R170, R175, R182). -/

namespace Sys2Proof.Machine

/-! ## Packing -/

theorem packBytes_cons8 (a b c d e f g h : Bool) (rest : List Bool) :
    packBytes (a :: b :: c :: d :: e :: f :: g :: h :: rest) = packByte 8 [a, b, c, d, e, f, g, h] :: packBytes rest :=
  rfl

theorem packBytes_short {l : List Bool} (h : l.length < 8) : packBytes l = [] := by
  match l, h with
  | [], _ => rfl
  | [_], _ => rfl
  | [_, _], _ => rfl
  | [_, _, _], _ => rfl
  | [_, _, _, _], _ => rfl
  | [_, _, _, _, _], _ => rfl
  | [_, _, _, _, _, _], _ => rfl
  | [_, _, _, _, _, _, _], _ => rfl
  | _ :: _ :: _ :: _ :: _ :: _ :: _ :: _ :: _, h => simp at h; omega

theorem partialBits_short {l : List Bool} (h : l.length < 8) : partialBits l = l := by
  simp [partialBits, Nat.div_eq_of_lt h]

theorem partialBits_cons8 (a b c d e f g h : Bool) (rest : List Bool) :
    partialBits (a :: b :: c :: d :: e :: f :: g :: h :: rest) = partialBits rest := by
  have : 8 * ((rest.length + 8) / 8) = 8 * (rest.length / 8) + 8 := by omega
  simp only [partialBits, List.length_cons]
  rw [show rest.length + 1 + 1 + 1 + 1 + 1 + 1 + 1 + 1 = rest.length + 8 by omega, this]
  rfl

theorem partialBits_length (l : List Bool) : (partialBits l).length = l.length % 8 := by
  simp only [partialBits, List.length_drop]
  omega

/-- Induction over a bit string by whole bytes. -/
theorem bits_byte_induction {P : List Bool → Prop} (short : ∀ l, l.length < 8 → P l)
    (step : ∀ a b c d e f g h rest, P rest → P (a :: b :: c :: d :: e :: f :: g :: h :: rest)) (l : List Bool) : P l := by
  induction hn : l.length using Nat.strongRecOn generalizing l with
  | ind n ih =>
    by_cases h8 : l.length < 8
    · exact short l h8
    · match l, h8 with
      | a :: b :: c :: d :: e :: f :: g :: h :: rest, _ =>
        exact step a b c d e f g h rest (ih rest.length (by simp at hn; omega) rest rfl)
      | [], h8 | [_], h8 | [_, _], h8 | [_, _, _], h8 | [_, _, _, _], h8 | [_, _, _, _, _], h8
      | [_, _, _, _, _, _], h8 | [_, _, _, _, _, _, _], h8 => simp at h8

theorem packBytes_append (xs ys : List Bool) :
    packBytes (xs ++ ys) = packBytes xs ++ packBytes (partialBits xs ++ ys) := by
  induction xs using bits_byte_induction with
  | short l h => rw [packBytes_short h, partialBits_short h, List.nil_append]
  | step a b c d e f g h rest ih =>
    simp only [List.cons_append, packBytes_cons8, partialBits_cons8, ih]

theorem partialBits_append (xs ys : List Bool) : partialBits (xs ++ ys) = partialBits (partialBits xs ++ ys) := by
  induction xs using bits_byte_induction with
  | short l h => rw [partialBits_short h]
  | step a b c d e f g h rest ih => simp only [List.cons_append, partialBits_cons8, ih]

theorem packBytes_length (l : List Bool) : (packBytes l).length = l.length / 8 := by
  induction l using bits_byte_induction with
  | short l h => rw [packBytes_short h]; simp; omega
  | step a b c d e f g h rest ih =>
    simp only [packBytes_cons8, List.length_cons, ih]; omega

/-- The stream bits of the packed bytes are the packed bits. -/
theorem bytesBits_packBytes (l : List Bool) : bytesBits (packBytes l) ++ partialBits l = l := by
  induction l using bits_byte_induction with
  | short l h => rw [packBytes_short h, partialBits_short h]; rfl
  | step a b c d e f g h rest ih =>
    rw [packBytes_cons8, partialBits_cons8, bytesBits_cons, byteBits_packByte, List.append_assoc, ih]
    rfl

/-- A partial byte gives its bits back, then zeros. -/
theorem byteBits_packByte_short {l : List Bool} (h : l.length < 8) :
    byteBits (packByte 8 l) = l ++ List.replicate (8 - l.length) false := by
  match l, h with
  | [], _ => decide
  | [a], _ => revert a; decide
  | [a, b], _ => revert a b; decide
  | [a, b, c], _ => revert a b c; decide
  | [a, b, c, d], _ => revert a b c d; decide
  | [a, b, c, d, e], _ => revert a b c d e; decide
  | [a, b, c, d, e, f], _ => revert a b c d e f; decide
  | [a, b, c, d, e, f, g], _ => revert a b c d e f g; decide
  | _ :: _ :: _ :: _ :: _ :: _ :: _ :: _ :: _, h => simp at h; omega

/-! ## Appending -/

theorem Writer.pendingBits_length {w : Writer} (h : w.Ok) : w.pendingBits.length = maskIndex w.bitMask := by
  have := ((oneHot_iff w.bitMask).mp h.1).2
  rw [Writer.pendingBits, List.length_take, byteBits_length]
  omega

theorem partial_low_bits_zero {l : List Bool} (h : l.length < 8) :
    packByte 8 l &&& ((0x80#8 >>> l.length) ||| ((0x80#8 >>> l.length) - 1#8)) = 0x00#8 := by
  match l, h with
  | [], _ => decide
  | [a], _ => revert a; decide
  | [a, b], _ => revert a b; decide
  | [a, b, c], _ => revert a b c; decide
  | [a, b, c, d], _ => revert a b c d; decide
  | [a, b, c, d, e], _ => revert a b c d e; decide
  | [a, b, c, d, e, f], _ => revert a b c d e f; decide
  | [a, b, c, d, e, f, g], _ => revert a b c d e f g; decide
  | _ :: _ :: _ :: _ :: _ :: _ :: _ :: _ :: _, h => simp at h; omega

theorem Writer.append_ok (w : Writer) (bits : List Bool) : (w.append bits).Ok := by
  have hl := partialBits_length (w.pendingBits ++ bits)
  have hm : (w.pendingBits ++ bits).length % 8 < 8 := Nat.mod_lt _ (by decide)
  refine ⟨oneHot_shift hm, ?_⟩
  have := partial_low_bits_zero (l := partialBits (w.pendingBits ++ bits)) (by omega)
  rw [hl] at this
  exact this

theorem Writer.append_pendingBits (w : Writer) (bits : List Bool) :
    (w.append bits).pendingBits = partialBits (w.pendingBits ++ bits) := by
  have hl := partialBits_length (w.pendingBits ++ bits)
  have hm : (w.pendingBits ++ bits).length % 8 < 8 := Nat.mod_lt _ (by decide)
  show (byteBits (w.append bits).pendingByte).take (maskIndex (w.append bits).bitMask) = _
  rw [show (w.append bits).pendingByte = packByte 8 (partialBits (w.pendingBits ++ bits)) from rfl,
    show (w.append bits).bitMask = 0x80#8 >>> ((w.pendingBits ++ bits).length % 8) from rfl,
    maskIndex_shift hm, byteBits_packByte_short (by omega), List.take_left' hl]

/-- A pending byte is its pending bits and zeros (R27). -/
theorem Writer.pendingByte_eq {w : Writer} (h : w.Ok) : w.pendingByte = packByte 8 w.pendingBits := by
  obtain ⟨h1, h2⟩ := (oneHot_iff w.bitMask).mp h.1
  have hz := h.2
  unfold Writer.pendingBits
  have key : ∀ k : Fin 8, ∀ p : Byte, p &&& ((0x80#8 >>> k.val) ||| ((0x80#8 >>> k.val) - 1#8)) = 0x00#8 →
      p = packByte 8 ((byteBits p).take k.val) := by decide
  rw [h1] at hz
  exact key ⟨_, h2⟩ _ hz

theorem Writer.append_nil {w : Writer} (h : w.Ok) : w.append [] = w := by
  obtain ⟨h1, h2⟩ := (oneHot_iff w.bitMask).mp h.1
  have hlen := Writer.pendingBits_length h
  have hshort : w.pendingBits.length < 8 := by omega
  unfold Writer.append
  simp only [List.append_nil, packBytes_short hshort, partialBits_short hshort, ← Writer.pendingByte_eq h, hlen,
    Nat.mod_eq_of_lt h2, ← h1, List.length_nil]
  simp

theorem Writer.append_append (w : Writer) (xs ys : List Bool) : (w.append xs).append ys = w.append (xs ++ ys) := by
  have hp := Writer.append_pendingBits w xs
  have hpos : (w.append xs).position = w.position + BitVec.ofNat 64 xs.length := rfl
  have hlen : (partialBits (w.pendingBits ++ xs) ++ ys).length % 8 = (w.pendingBits ++ xs ++ ys).length % 8 := by
    simp only [List.length_append, partialBits_length]; omega
  rw [Writer.append.eq_1 ys (w.append xs), Writer.append.eq_1 (xs ++ ys) w]
  simp only [hp, hpos, ← List.append_assoc, packBytes_append (w.pendingBits ++ xs) ys,
    partialBits_append (w.pendingBits ++ xs) ys, hlen, List.length_append (as := xs), BitVec.ofNat_add,
    BitVec.add_assoc]
  rfl

/-- Appending keeps the stream written so far, emitted and pending, and puts the bits after it (R66). -/
theorem Writer.append_written (w : Writer) (bits : List Bool) :
    bytesBits (w.append bits).sink ++ (w.append bits).pendingBits = bytesBits w.sink ++ w.pendingBits ++ bits := by
  rw [Writer.append_pendingBits, show (w.append bits).sink = w.sink ++ packBytes (w.pendingBits ++ bits) from rfl,
    bytesBits_append, List.append_assoc, bytesBits_packBytes, List.append_assoc]

/-! ## The micro-step -/

theorem wrbit_byte_short : ∀ k : Fin 7, ∀ p : Byte, ∀ b : Bool,
    p &&& ((0x80#8 >>> k.val) ||| ((0x80#8 >>> k.val) - 1#8)) = 0x00#8 →
    (if b then p ||| (0x80#8 >>> k.val) else p &&& ~~~(0x80#8 >>> k.val))
      = packByte 8 ((byteBits p).take k.val ++ [b]) := by
  decide

theorem wrbit_byte_full : ∀ p : Byte, ∀ b : Bool, p &&& ((0x01#8) ||| ((0x01#8) - 1#8)) = 0x00#8 →
    packBytes ((byteBits p).take 7 ++ [b]) = [if b then p ||| 0x01#8 else p &&& ~~~0x01#8] := by
  decide

/-- WRBIT appends one bit (R66, R170). -/
theorem Writer.wrbit_eq {w : Writer} (h : w.Ok) (b : Bool) : w.wrbit b = w.append [b] := by
  obtain ⟨h1, h2⟩ := (oneHot_iff w.bitMask).mp h.1
  have hz := h.2
  have hlen := Writer.pendingBits_length h
  have hall : (w.pendingBits ++ [b]).length = maskIndex w.bitMask + 1 := by simp [hlen]
  have hlast : w.bitMask >>> 1 = 0x00#8 ↔ maskIndex w.bitMask = 7 := by
    conv_lhs => rw [h1]
    exact shift_last h2
  unfold Writer.wrbit
  simp only
  split
  · rename_i hm
    have hk := hlast.mp hm
    have hmask : w.bitMask = 0x01#8 := by rw [h1, hk]; decide
    have hpack : packBytes (w.pendingBits ++ [b])
        = [if b then w.pendingByte ||| w.bitMask else w.pendingByte &&& ~~~w.bitMask] := by
      rw [hmask] at hz ⊢
      rw [Writer.pendingBits, hmask]
      exact wrbit_byte_full w.pendingByte b hz
    have hpart : partialBits (w.pendingBits ++ [b]) = [] := by
      apply List.eq_nil_of_length_eq_zero
      rw [partialBits_length, hall, hk]
    have hsh : 0x80#8 >>> ((maskIndex w.bitMask + 1) % 8) = 0x80#8 := by rw [hk]; decide
    simp only [Writer.append, hpack, hpart, hall, hsh, Writer.sinkEmit]
    rfl
  · rename_i hm
    have hk : maskIndex w.bitMask < 7 := by
      have : maskIndex w.bitMask ≠ 7 := fun e => hm (hlast.mpr e)
      omega
    have hbyte : (if b then w.pendingByte ||| w.bitMask else w.pendingByte &&& ~~~w.bitMask)
        = packByte 8 (w.pendingBits ++ [b]) := by
      rw [h1] at hz
      have := wrbit_byte_short ⟨_, hk⟩ w.pendingByte b hz
      simp only [← h1] at this
      exact this
    have hshort : (w.pendingBits ++ [b]).length < 8 := by omega
    have hsh : 0x80#8 >>> ((maskIndex w.bitMask + 1) % 8) = w.bitMask >>> 1 := by
      conv_rhs => rw [h1]
      rw [← BitVec.shiftRight_add, Nat.mod_eq_of_lt (by omega)]
    simp only [Writer.append, packBytes_short hshort, partialBits_short hshort, hbyte, hall, hsh, List.append_nil]
    rfl

/-! ## Runs of micro-steps -/

theorem Writer.writeBits_eq {w : Writer} (h : w.Ok) (bits : List Bool) : w.writeBits bits = w.append bits := by
  induction bits generalizing w with
  | nil => exact (Writer.append_nil h).symm
  | cons b bs ih =>
    rw [Writer.writeBits, Writer.wrbit_eq h, ih (Writer.append_ok w [b]), Writer.append_append]
    rfl

theorem base2Bits_succ (i : Nat) (v : Word) : base2Bits (i + 1) v = v.getLsbD i :: base2Bits i v := by
  unfold base2Bits
  rw [List.range_succ_eq_map, List.map_cons, List.map_map]
  congr 1
  apply List.map_congr_left
  intro j hj
  simp only [Function.comp]
  congr 1
  omega

theorem Writer.emitBase2_eq {w : Writer} (h : w.Ok) (v : Word) (len : Nat) :
    Writer.emitBase2 v len w = w.append (base2Bits len v) := by
  induction len generalizing w with
  | zero => exact (Writer.append_nil h).symm
  | succ i ih =>
    rw [Writer.emitBase2, Writer.wrbit_eq h, ih (Writer.append_ok w _), Writer.append_append, base2Bits_succ]
    rfl

theorem base2Bits_byte (b : Byte) : base2Bits 8 (b.setWidth 64) = byteBits b := by
  unfold base2Bits byteBits
  apply List.map_congr_left
  intro j hj
  rw [BitVec.getLsbD_setWidth]
  have : 8 - 1 - j < 64 := by omega
  simp [this]

theorem Writer.writeByte_eq {w : Writer} (h : w.Ok) (b : Byte) : w.writeByte b = w.append (byteBits b) := by
  rw [Writer.writeByte, Writer.emitBase2_eq h, base2Bits_byte]

theorem Writer.writeBytes_eq {w : Writer} (h : w.Ok) (bs : List Byte) : w.writeBytes bs = w.append (bytesBits bs) := by
  induction bs generalizing w with
  | nil => exact (Writer.append_nil h).symm
  | cons b bs ih =>
    rw [Writer.writeBytes, Writer.writeByte_eq h, ih (Writer.append_ok w _), Writer.append_append, bytesBits_cons]

/-- WRSTR's loop writes the bytes before the first zero byte, then one zero byte (R178). -/
theorem Writer.writeString_eq {w : Writer} (h : w.Ok) (bs : List Byte) :
    w.writeString bs = w.append (stringBits (untilZero bs)) := by
  induction bs generalizing w with
  | nil => rw [Writer.writeString, Writer.writeByte_eq h]; rfl
  | cons b bs ih =>
    rw [Writer.writeString]
    by_cases hb : b = 0x00#8
    · rw [if_pos hb, Writer.writeByte_eq h, hb]
      rfl
    · rw [if_neg hb, Writer.writeByte_eq h, ih (Writer.append_ok w _), Writer.append_append]
      congr 1
      simp [untilZero, hb, stringBits, bytesBits_cons]

/-- A writer whose mask is at the top bit has nothing pending (R28). -/
theorem Writer.pendingBits_nil {w : Writer} (h : w.bitMask = 0x80#8) : w.pendingBits = [] := by
  rw [Writer.pendingBits, h, show maskIndex 0x80#8 = 0 by decide, List.take_zero]

/-- Emission of the pending byte puts its pending bits in the sink, padded with zeros to a byte (R90, R179). -/
theorem Writer.emitPending_written {w : Writer} (h : w.Ok) :
    bytesBits w.emitPending.sink
      = bytesBits w.sink ++ w.pendingBits ++ List.replicate (8 - w.pendingBits.length) false := by
  have hlen := Writer.pendingBits_length h
  have h8 := ((oneHot_iff w.bitMask).mp h.1).2
  rw [show w.emitPending.sink = w.sink ++ [w.pendingByte] from rfl, bytesBits_append, List.append_assoc,
    ← byteBits_packByte_short (by omega), ← Writer.pendingByte_eq h]
  simp [bytesBits]

/-- The writer after an emission of its pending byte is in order. -/
theorem Writer.emitPending_ok (w : Writer) : w.emitPending.Ok := by
  simp only [Writer.Ok, Writer.emitPending_bitMask, Writer.emitPending_pendingByte]
  decide

end Sys2Proof.Machine
end

