-- ==== Sys2Proof/Machine/Assembler.lean ====
section
/-! DEFINITION. The assembler syntax of 30_encoding.md R105: the line a command is written as. -/

namespace Sys2Proof.Machine

/-- The mnemonic of R101. -/
def mnemonicOf : Instr → String
  | .rdbit => "RDBIT"
  | .rdbits _ => "RDBITS"
  | .rdbyte => "RDBYTE"
  | .rdbytes _ => "RDBYTES"
  | .rdbuf _ _ _ => "RDBUF"
  | .rdb2 _ => "RDB2"
  | .rdfib => "RDFIB"
  | .rdstr => "RDSTR"
  | .wrbit _ => "WRBIT"
  | .wrbits => "WRBITS"
  | .wrbyte _ => "WRBYTE"
  | .wrbuf _ _ => "WRBUF"
  | .wrb2 _ _ => "WRB2"
  | .wrfibu _ => "WRFIBU"
  | .wrfibs _ => "WRFIBS"
  | .wrstr => "WRSTR"
  | .flush => "FLUSH"
  | .finish => "FINISH"

/-- The operands in the order arg0, arg1, arg2, in decimal. -/
def operandTexts : Instr → List String
  | .rdbit => []
  | .rdbits count => [toString count]
  | .rdbyte => []
  | .rdbytes count => [toString count]
  | .rdbuf buflen offset length => [toString buflen, toString offset, toString length]
  | .rdb2 bitLength => [toString bitLength]
  | .rdfib => []
  | .rdstr => []
  | .wrbit bit => [if bit then "1" else "0"]
  | .wrbits => []
  | .wrbyte byte => [toString byte.toNat]
  | .wrbuf offset length => [toString offset, toString length]
  | .wrb2 value bitLength => [toString value.toNat, toString bitLength]
  | .wrfibu value => [toString value.toNat]
  | .wrfibs value => [toString value]
  | .wrstr => []
  | .flush => []
  | .finish => []

/-- Texts joined by a separator. -/
def joinTexts (sep : String) : List String → String
  | [] => ""
  | [x] => x
  | x :: xs => x ++ sep ++ joinTexts sep xs

/-- One hexadecimal digit. -/
def hexDigit (n : Nat) : String := ("0123456789ABCDEF".toList.getD n '0').toString

/-- A byte as two hexadecimal digits. -/
def hexByte (b : Byte) : String := hexDigit (b.toNat / 16) ++ hexDigit (b.toNat % 16)

/-- The payload part of a line: bytes in hexadecimal, or 0/1 characters for WRBITS; empty for a command that takes none. -/
def payloadText (i : Instr) (payload : List Byte) : String :=
  match i with
  | .wrbits => " [" ++ joinTexts "" (payload.map fun b => if b.getLsbD 0 then "1" else "0") ++ "]"
  | .wrbuf _ _ => " [" ++ joinTexts " " (payload.map hexByte) ++ "]"
  | .wrstr => " [" ++ joinTexts " " (payload.map hexByte) ++ "]"
  | _ => ""

/-- One line: mnemonic, operands, payload. -/
def lineOf (i : Instr) (payload : List Byte) : String :=
  match operandTexts i with
  | [] => mnemonicOf i ++ payloadText i payload
  | ops => mnemonicOf i ++ " " ++ joinTexts ", " ops ++ payloadText i payload

/-- One line of a listing that mixes both ports. -/
def portLineOf (i : Instr) (payload : List Byte) : String :=
  match i.port with
  | .ru => "R: " ++ lineOf i payload
  | .wu => "W: " ++ lineOf i payload

end Sys2Proof.Machine
end

