-- ==== Sys2Proof/Tests/Slice0.lean ====
section
/-! SUPPORT. Tests of single operations on small states, and for each statement a state and operands that meet its
hypotheses. Expected results are the spec's own: the vectors V, E and P of 95_test_vectors.md and the examples of the command
rules, named at each test. -/

namespace Sys2Proof.Tests

open Sys2Proof.Machine

/-! ## Helpers -/

/-- RU fresh on a source (R40), WU fresh. -/
def fresh (source : List Byte) : State := { State.reset with ru := Reader.resetOn source Reader.reset }

/-- WU fresh with one payload packet presented. -/
def withPacket (payload : List Byte) : State :=
  { State.reset with wu := { Writer.reset with wstream := packetOf payload } }

/-- WU with these bits written since reset (R66), no payload presented. -/
def written (bits : List Bool) : State := { State.reset with wu := Writer.reset.append bits }

/-- What 95_test_vectors.md writes of a unit: RU as cursor, currentByte, bitMask with its result items, WU as position,
pendingByte, bitMask with its sink; and the responses, each as its status code and value. -/
structure View where
  count : Nat
  byte : Byte
  mask : Byte
  out : List Byte
  responses : List (Nat × Nat)
deriving DecidableEq, Repr

/-- The reader of a next state. -/
def ruOf : Host.Outcome State Fault Refusal → Option View
  | .next t =>
    some ⟨t.ru.cursor.toNat, t.ru.currentByte, t.ru.bitMask, t.ru.rstream,
      t.ru.responses.map fun r => (r.status.code.toNat, r.value.toNat)⟩
  | _ => none

/-- The writer of a next state. -/
def wuOf : Host.Outcome State Fault Refusal → Option View
  | .next t =>
    some ⟨t.wu.position.toNat, t.wu.pendingByte, t.wu.bitMask, t.wu.sink,
      t.wu.responses.map fun r => (r.status.code.toNat, r.value.toNat)⟩
  | _ => none

/-- The number of payload items left on `wstream`. -/
def leftOf : Host.Outcome State Fault Refusal → Option Nat
  | .next t => some t.wu.wstream.length
  | _ => none

/-- The instruction decoded, if any. -/
def decoded (p : Port) (w : CmdWord) : Option Instr :=
  match decode p w with
  | .ok i => some i
  | .error _ => none

/-! ## WellFormed refuses each ill-formed operand -/

theorem test_wf_rdbits : (Instr.rdbits (2 ^ 64)).wellFormed = false := by decide
theorem test_wf_rdbytes : (Instr.rdbytes (2 ^ 64)).wellFormed = false := by decide
theorem test_wf_rdbuf_buflen : (Instr.rdbuf (2 ^ 63) 0 0).wellFormed = false := by decide
theorem test_wf_rdbuf_offset : (Instr.rdbuf 0 (-2 ^ 63 - 1) 0).wellFormed = false := by decide
theorem test_wf_rdbuf_length : (Instr.rdbuf 0 0 (2 ^ 63)).wellFormed = false := by decide
theorem test_wf_rdb2 : (Instr.rdb2 (-2 ^ 63 - 1)).wellFormed = false := by decide
theorem test_wf_wrbuf_offset : (Instr.wrbuf (2 ^ 63) 0).wellFormed = false := by decide
theorem test_wf_wrbuf_length : (Instr.wrbuf 0 (-2 ^ 63 - 1)).wellFormed = false := by decide
theorem test_wf_wrb2 : (Instr.wrb2 0#64 (2 ^ 63)).wellFormed = false := by decide
theorem test_wf_wrfibs : (Instr.wrfibs (2 ^ 63)).wellFormed = false := by decide

/-! ## Decoding: words of 95_test_vectors.md, or written out from R95 and R101 -/

theorem test_decode_rdbit :
    decoded .ru 0x00000000000000000000000000000000000000000000000001#200 = some .rdbit := by decide
theorem test_decode_rdbits :
    decoded .ru 0x00000000000000000000000000000000000000000000000A02#200 = some (.rdbits 10) := by decide
/-- R103: the unused fields are all ones. -/
theorem test_decode_rdbyte :
    decoded .ru 0xFFFFFFFFFFFFFFFFFFFFFFFFFFFFFFFFFFFFFFFFFFFFFFFF03#200 = some .rdbyte := by decide
theorem test_decode_rdbytes :
    decoded .ru 0x00000000000000000000000000000000000000000000000304#200 = some (.rdbytes 3) := by decide
/-- V105. -/
theorem test_decode_rdbuf :
    decoded .ru 0x0000000000000001FFFFFFFFFFFFFFFF000000000000000405#200 = some (.rdbuf 4 (-1) 1) := by decide
/-- V102: read as i64. -/
theorem test_decode_rdb2 :
    decoded .ru 0x00000000000000000000000000000000FFFFFFFFFFFFFFFF06#200 = some (.rdb2 (-1)) := by decide
theorem test_decode_rdfib :
    decoded .ru 0x00000000000000000000000000000000000000000000000007#200 = some .rdfib := by decide
theorem test_decode_rdstr :
    decoded .ru 0x00000000000000000000000000000000000000000000000008#200 = some .rdstr := by decide
/-- R103: bit 0 of `arg0` alone counts. -/
theorem test_decode_wrbit :
    decoded .wu 0xFFFFFFFFFFFFFFFFFFFFFFFFFFFFFFFFFFFFFFFFFFFFFFFE11#200 = some (.wrbit false) := by decide
theorem test_decode_wrbits :
    decoded .wu 0x00000000000000000000000000000000000000000000000012#200 = some .wrbits := by decide
/-- P4; R103: bits 7 to 0 of `arg0` alone count. -/
theorem test_decode_wrbyte :
    decoded .wu 0x000000000000000000000000000000000000000000000CDAB13#200 = some (.wrbyte 0xAB#8) := by decide
/-- P3. -/
theorem test_decode_wrbuf :
    decoded .wu 0x00000000000000000000000000000003000000000000000215#200 = some (.wrbuf 2 3) := by decide
/-- P1. -/
theorem test_decode_wrb2 :
    decoded .wu 0x00000000000000000000000000000008000000000000002016#200 = some (.wrb2 32#64 8) := by decide
/-- P5. -/
theorem test_decode_wrfibu :
    decoded .wu 0x00000000000000000000000000000000000000000000000517#200 = some (.wrfibu 5#64) := by decide
/-- V112: the most negative operand. -/
theorem test_decode_wrfibs :
    decoded .wu 0x00000000000000000000000000000000800000000000000018#200 = some (.wrfibs (-9223372036854775808)) := by
  decide
theorem test_decode_wrstr :
    decoded .wu 0x00000000000000000000000000000000000000000000000019#200 = some .wrstr := by decide
theorem test_decode_flush :
    decoded .wu 0x0000000000000000000000000000000000000000000000001A#200 = some .flush := by decide
theorem test_decode_finish :
    decoded .wu 0x0000000000000000000000000000000000000000000000001B#200 = some .finish := by decide

/-- V117: opcodes the writer's port does not assign, a reader's among them. -/
theorem test_decode_illegal_wu : [0x00#200, 0x14#200, 0xFF#200, 0x07#200].all (fun w => decoded .wu w = none) := by
  decide
/-- V117: opcodes the reader's port does not assign, a writer's among them. -/
theorem test_decode_illegal_ru : [0x00#200, 0x11#200, 0x09#200].all (fun w => decoded .ru w = none) := by decide

/-! ## The reader's commands -/

/-- R121's example, first bit. -/
theorem test_rdbit : ruOf (exec .rdbit (fresh [0xA0#8])) = some ⟨0, 0xA0#8, 0x40#8, [], [(0, 1)]⟩ := by decide

/-- V19: bits 8 to 11 are past the end. -/
theorem test_rdbits_past_end :
    ruOf (exec (.rdbits 12) (fresh [0xA0#8]))
      = some ⟨1, 0x00#8, 0x08#8, [1#8, 0#8, 1#8, 0#8, 0#8, 0#8, 0#8, 0#8, 0#8, 0#8, 0#8, 0#8], [(0, 12)]⟩ := by decide

/-- R123's example, on the reader one bit into `90 01`. -/
theorem test_rdbyte_straddles :
    ruOf (exec .rdbyte { fresh [0x90#8, 0x01#8] with ru := (fresh [0x90#8, 0x01#8]).ru.advance 1 })
      = some ⟨1, 0x01#8, 0x40#8, [], [(0, 0x20)]⟩ := by decide

/-- V11. -/
theorem test_rdbytes :
    ruOf (exec (.rdbytes 3) (fresh [0x22#8, 0x72#8, 0x6C#8]))
      = some ⟨3, 0x00#8, 0x80#8, [0x22#8, 0x72#8, 0x6C#8], [(0, 3)]⟩ := by decide +kernel

/-- V12. -/
theorem test_rdbuf :
    ruOf (exec (.rdbuf 4 2 2) (fresh [0x55#8, 0x32#8, 0xFF#8]))
      = some ⟨2, 0xFF#8, 0x80#8, [0x55#8, 0x32#8], [(0, 2)]⟩ := by decide

/-- V108: the sum is taken over unbounded integers. -/
theorem test_rdbuf_no_wrap :
    ruOf (exec (.rdbuf 4 9223372036854775807 9223372036854775807) (fresh [0x55#8, 0x32#8, 0xFF#8]))
      = some ⟨0, 0x55#8, 0x80#8, [], [(1, 0)]⟩ := by decide

/-- R127's example, second read: `RDB2 9` of `FF 01` after three bits. -/
theorem test_rdb2_straddles :
    ruOf (exec (.rdb2 9) { fresh [0xFF#8, 0x01#8] with ru := (fresh [0xFF#8, 0x01#8]).ru.advance 3 })
      = some ⟨1, 0x01#8, 0x08#8, [], [(0, 496)]⟩ := by decide

/-- V101. -/
theorem test_rdb2_out_of_range :
    ruOf (exec (.rdb2 65) (fresh [0xC8#8, 0x01#8])) = some ⟨0, 0xC8#8, 0x80#8, [], [(1, 0)]⟩ := by decide

/-- V46: the terminator is the first bit of byte 1. -/
theorem test_rdfib_straddles :
    ruOf (exec .rdfib (fresh [0x01#8, 0x80#8])) = some ⟨1, 0x80#8, 0x40#8, [], [(0, 34)]⟩ := by decide

/-- V48: no terminator, so no response and the unit stays busy. -/
theorem test_rdfib_hangs :
    (match exec .rdfib (fresh [0xA8#8]) with
      | .next t => t.ru.responses.isEmpty && !t.ru.idle
      | _ => false) = true := by decide

/-- V14, first command. -/
theorem test_rdstr :
    ruOf (exec .rdstr (fresh [0x41#8, 0x42#8, 0x00#8, 0x43#8, 0x00#8]))
      = some ⟨3, 0x43#8, 0x80#8, [0x41#8, 0x42#8], [(0, 2)]⟩ := by decide

/-- V15: the zero byte past the end terminates it. -/
theorem test_rdstr_past_end :
    ruOf (exec .rdstr (fresh [0x41#8, 0x42#8])) = some ⟨3, 0x00#8, 0x80#8, [0x41#8, 0x42#8], [(0, 2)]⟩ := by decide

/-! ## The writer's commands -/

/-- The last of V73's eight bits `10000011`: it emits the byte in the same micro-step (R170). -/
theorem test_wrbit_emits :
    wuOf (exec (.wrbit true) (written [true, false, false, false, false, false, true]))
      = some ⟨8, 0x00#8, 0x80#8, [0x83#8], [(0, 0)]⟩ := by decide

/-- R172's example. -/
theorem test_wrbits :
    wuOf (exec .wrbits (withPacket [1#8, 0#8, 1#8, 1#8])) = some ⟨4, 0xB0#8, 0x08#8, [], [(0, 0)]⟩ := by decide

/-- V27, second command. -/
theorem test_wrbyte_straddles :
    wuOf (exec (.wrbyte 0xAB#8) (written [true])) = some ⟨9, 0x80#8, 0x40#8, [0xD5#8], [(0, 0)]⟩ := by decide

/-- V29 (a): bytes outside the window are not written. -/
theorem test_wrbuf_window :
    wuOf (exec (.wrbuf 2 1) (withPacket [1#8, 2#8, 3#8, 4#8])) = some ⟨8, 0x00#8, 0x80#8, [0x03#8], [(0, 0)]⟩ := by
  decide

/-- V114: an error, and the packet is consumed whole. -/
theorem test_wrbuf_out_of_range :
    wuOf (exec (.wrbuf 2 3) (withPacket [1#8, 2#8, 3#8, 4#8])) = some ⟨0, 0x00#8, 0x80#8, [], [(1, 0)]⟩ ∧
      leftOf (exec (.wrbuf 2 3) (withPacket [1#8, 2#8, 3#8, 4#8])) = some 0 := by decide

/-- V35 (b): the high bits are dropped. -/
theorem test_wrb2_truncates :
    wuOf (exec (.wrb2 0xABC#64 4) State.reset) = some ⟨4, 0xC0#8, 0x08#8, [], [(0, 0)]⟩ := by decide

/-- V36: bits above 63 are written as 0. -/
theorem test_wrb2_beyond_64 :
    wuOf (exec (.wrb2 5#64 70) State.reset)
      = some ⟨70, 0x14#8, 0x02#8, [0#8, 0#8, 0#8, 0#8, 0#8, 0#8, 0#8, 0#8], [(0, 0)]⟩ := by decide +kernel

/-- V80. -/
theorem test_wrfibu_100 :
    wuOf (exec (.wrfibu 100#64) State.reset) = some ⟨11, 0x60#8, 0x10#8, [0x28#8], [(0, 0)]⟩ := by decide +kernel

/-- V97: 0 is written as the single bit 1. -/
theorem test_wrfibu_zero :
    wuOf (exec (.wrfibu 0#64) State.reset) = some ⟨1, 0x80#8, 0x40#8, [], [(0, 0)]⟩ := by decide +kernel

/-- E4b. -/
theorem test_wrfibs_13 :
    wuOf (exec (.wrfibs 13) State.reset) = some ⟨7, 0x06#8, 0x01#8, [], [(0, 0)]⟩ := by decide +kernel

/-- V111. -/
theorem test_wrfibs_negative :
    wuOf (exec (.wrfibs (-1)) State.reset) = some ⟨0, 0x00#8, 0x80#8, [], [(1, 0)]⟩ := by decide

/-- V26 (a): what follows the embedded zero is dropped, and no second zero is written. -/
theorem test_wrstr_truncates :
    wuOf (exec .wrstr (withPacket [0x41#8, 0x00#8, 0x42#8])) = some ⟨16, 0x00#8, 0x80#8, [0x41#8, 0x00#8], [(0, 0)]⟩ := by
  decide

/-- V26 (b). -/
theorem test_wrstr_terminates :
    wuOf (exec .wrstr (withPacket [0x41#8, 0x42#8]))
      = some ⟨24, 0x00#8, 0x80#8, [0x41#8, 0x42#8, 0x00#8], [(0, 0)]⟩ := by decide +kernel

/-- R179's example. -/
theorem test_flush :
    wuOf (exec .flush (written [true, false, true])) = some ⟨3, 0x00#8, 0x80#8, [0xA0#8], [(0, 0)]⟩ := by decide

/-- V38 (b): the spurious zero byte. -/
theorem test_flush_on_boundary :
    wuOf (exec .flush State.reset) = some ⟨0, 0x00#8, 0x80#8, [0x00#8], [(0, 0)]⟩ := by decide

/-- V30. -/
theorem test_finish :
    wuOf (exec .finish (written [false, true, false, true])) = some ⟨4, 0x00#8, 0x80#8, [0x50#8], [(0, 0)]⟩ := by decide

/-- V38 (a). -/
theorem test_finish_on_boundary :
    wuOf (exec .finish State.reset) = some ⟨0, 0x00#8, 0x80#8, [], [(0, 0)]⟩ := by decide

/-! ## FibCode (R87, R208) -/

theorem test_fibCode_12 : fibCode 12 = [true, false, true, false, true, true] := by decide +kernel

/-- V96: 91 zeros, then 11. -/
theorem test_fibCode_F93 :
    fibCode 12200160415121876738 = List.replicate 91 false ++ [true, true] := by decide +kernel

/-- R203 and R208: the reference loop on the value D00 names. -/
theorem test_fibEncodeLoop_last_guaranteed :
    fibEncodeLoop 2147483646#64
      = "1010010001000101001000001001000100001000100011".toList.map (fun c => decide (c = '1')) := by decide +kernel

/-! ## The step -/

/-- An opcode-table row's word placed by `withFetchWord` runs in the next step, on either port. -/
theorem test_fetch_word :
    ruOf (step (State.withFetchWord (fresh [0xA5#8]) 8 0x01)) = some ⟨0, 0xA5#8, 0x40#8, [], [(0, 1)]⟩ ∧
      wuOf (step (State.withFetchWord State.reset 8 0x19)) = some ⟨8, 0x00#8, 0x80#8, [0x00#8], [(0, 0)]⟩ := by decide

/-! ## The assembler (the examples of R105) -/

theorem test_asm_rdbuf : lineOf (.rdbuf 4 2 2) [] = "RDBUF 4, 2, 2" := by decide
theorem test_asm_wrfibs : lineOf (.wrfibs (-1)) [] = "WRFIBS -1" := by decide
theorem test_asm_wrbuf : lineOf (.wrbuf 0 3) [0x55#8, 0x32#8, 0xFF#8] = "WRBUF 0, 3 [55 32 FF]" := by decide
theorem test_asm_wrbits : lineOf .wrbits [1#8, 0#8, 1#8, 1#8] = "WRBITS [1011]" := by decide

/-! ## Witnesses: a state and operands that meet a statement's hypotheses, one for each clause -/

/-- RU with a control action, a running RDFIB and a presented word, one clause each of the step statements. -/
def reader (ctl : List ReaderControl) (fib : Option FibRegs) (cmds : List CmdWord) : State :=
  { State.reset with ru := { (fresh [0xC0#8, 0x01#8]).ru with ctl := ctl, fib := fib, cmds := cmds } }

/-- WU the same way, its turn next. -/
def writer (ctl : List WriterControl) (waiting : Option PayloadCmd) (cmds : List CmdWord) : State :=
  { ru := Reader.reset, wu := { Writer.reset with ctl := ctl, waiting := waiting, cmds := cmds }, turn := .wu }

theorem witness_DecodeInvertsEncode :
    [Instr.rdbits (2 ^ 64 - 1), .rdbuf (2 ^ 63 - 1) (-2 ^ 63) (-1), .rdb2 (-2 ^ 63), .wrbit true, .wrbyte 0xFF#8,
      .wrbuf (2 ^ 63 - 1) (-2 ^ 63), .wrb2 (BitVec.allOnes 64) (-1), .wrfibs (-2 ^ 63)].all Instr.wellFormed = true := by
  decide

theorem witness_DecodeAcceptsExactlyTheAssignedOpcodes :
    [1, 8].all (fun n => decide (1 ≤ (CmdWord.op (BitVec.ofNat 200 n)).toNat ∧
        (CmdWord.op (BitVec.ofNat 200 n)).toNat ≤ 8)) = true ∧
      [0, 9, 0x11, 0xFF].all (fun n => decide (¬ (1 ≤ (CmdWord.op (BitVec.ofNat 200 n)).toNat ∧
        (CmdWord.op (BitVec.ofNat 200 n)).toNat ≤ 8))) = true ∧
      [0x11, 0x13, 0x15, 0x1B].all (fun n => decide (0x11 ≤ (CmdWord.op (BitVec.ofNat 200 n)).toNat ∧
        (CmdWord.op (BitVec.ofNat 200 n)).toNat ≤ 0x1B ∧ (CmdWord.op (BitVec.ofNat 200 n)).toNat ≠ 0x14)) = true ∧
      [0, 0x10, 0x14, 0x1C].all (fun n => decide (¬ (0x11 ≤ (CmdWord.op (BitVec.ofNat 200 n)).toNat ∧
        (CmdWord.op (BitVec.ofNat 200 n)).toNat ≤ 0x1B ∧ (CmdWord.op (BitVec.ofNat 200 n)).toNat ≠ 0x14))) = true := by
  decide

theorem witness_DecodedCommandIsWellFormed : decode .ru 0xFFFFFFFFFFFFFFFF02#200 = .ok (.rdbits (2 ^ 64 - 1)) := by decide

/-- A WRBIT word with every unused bit set, and the same word with every unused bit clear. -/
theorem witness_UnusedBitsAreIgnored :
    decode .wu (BitVec.ofNat 200 (2 ^ 200 - 0x100 + 0x11)) = .ok (.wrbit true) ∧
      0x111#200 &&& usedBits (.wrbit true)
        = BitVec.ofNat 200 (2 ^ 200 - 0x100 + 0x11) &&& usedBits (.wrbit true) := by decide

theorem witness_StepRunsTheReadersCommand :
    (reader [] none [0x01#200]).turn = .ru ∧ (reader [] none [0x01#200]).ru.ctl = [] ∧
      (reader [] none [0x01#200]).ru.fib = none ∧ (reader [] none [0x01#200]).ru.cmds = 0x01#200 :: [] ∧
      decode .ru 0x01#200 = .ok .rdbit := by decide

theorem witness_StepRunsTheWritersCommand :
    (writer [] none [0x1A#200]).turn = .wu ∧ (writer [] none [0x1A#200]).wu.ctl = [] ∧
      (writer [] none [0x1A#200]).wu.waiting = none ∧ (writer [] none [0x1A#200]).wu.cmds = 0x1A#200 :: [] ∧
      decode .wu 0x1A#200 = .ok .flush := by decide

theorem witness_IllegalCommandOnlyResponds_reader :
    (reader [] none [0x09#200]).turn = .ru ∧ (reader [] none [0x09#200]).ru.ctl = [] ∧
      (reader [] none [0x09#200]).ru.fib = none ∧ (reader [] none [0x09#200]).ru.cmds = 0x09#200 :: [] ∧
      ¬ (1 ≤ (CmdWord.op 0x09#200).toNat ∧ (CmdWord.op 0x09#200).toNat ≤ 8) := by decide

theorem witness_IllegalCommandOnlyResponds_writer :
    (writer [] none [0x14#200]).turn = .wu ∧ (writer [] none [0x14#200]).wu.ctl = [] ∧
      (writer [] none [0x14#200]).wu.waiting = none ∧ (writer [] none [0x14#200]).wu.cmds = 0x14#200 :: [] ∧
      ¬ (0x11 ≤ (CmdWord.op 0x14#200).toNat ∧ (CmdWord.op 0x14#200).toNat ≤ 0x1B ∧
        (CmdWord.op 0x14#200).toNat ≠ 0x14) := by decide

/-- The next bit is a 1: without `last` the loop goes on, with `last` it ends. -/
theorem witness_BusyReaderRunsOneIteration :
    [FibRegs.init, { FibRegs.init with last := true }].all (fun f =>
      decide ((reader [] (some f) []).turn = .ru ∧ (reader [] (some f) []).ru.Ok ∧
        (reader [] (some f) []).ru.ctl = [] ∧ (reader [] (some f) []).ru.fib = some f ∧
        (reader [] (some f) []).ru.streamBit (reader [] (some f) []).ru.bitpos = true)) = true := by decide

theorem witness_WriterWaitsForItsPacket :
    takePacket (writer [] (some (.wrbuf 0 1)) []).wu.wstream = none ∧ (writer [] (some (.wrbuf 0 1)) []).turn = .wu ∧
      (writer [] (some (.wrbuf 0 1)) []).wu.ctl = [] ∧
      (writer [] (some (.wrbuf 0 1)) []).wu.waiting = some (.wrbuf 0 1) := by decide

/-- A writer that holds a command, with its packet whole and another command presented. -/
def holding (c : PayloadCmd) (payload : List Byte) (cmds : List CmdWord) : State :=
  { State.reset with
    wu := { Writer.reset with waiting := some c, wstream := packetOf payload, cmds := cmds }
    turn := .wu }

theorem witness_WriterWaitsForItsPacket_whole :
    (holding .wrstr [0x41#8] [0x1B#200]).turn = .wu ∧ (holding .wrstr [0x41#8] [0x1B#200]).wu.ctl = [] ∧
      (holding .wrstr [0x41#8] [0x1B#200]).wu.waiting = some .wrstr ∧
      takePacket (holding .wrstr [0x41#8] [0x1B#200]).wu.wstream = some ([0x41#8], []) := by decide

/-- R98: the held command runs when its packet is whole, and nothing of the command presented after it. -/
theorem test_held_command_runs :
    wuOf (step (holding .wrstr [0x41#8] [0x1A#200])) = some ⟨16, 0x00#8, 0x80#8, [0x41#8, 0x00#8], [(0, 0)]⟩ := by
  decide +kernel

theorem witness_AnIdleUnitWaitsForACommand :
    (reader [] none []).turn = .ru ∧ (reader [] none []).ru.ctl = [] ∧ (reader [] none []).ru.fib = none ∧
      (reader [] none []).ru.cmds = [] ∧ (writer [] none []).turn = .wu ∧ (writer [] none []).wu.ctl = [] ∧
      (writer [] none []).wu.waiting = none ∧ (writer [] none []).wu.cmds = [] := by decide

/-- The empty source and a source of one byte, in a reader that hangs. -/
theorem witness_ResetPutsAUnitInItsResetState_reader :
    [[], [0xA5#8]].all (fun bytes =>
      decide ((reader [.reset bytes] (some FibRegs.init) []).turn = .ru ∧
        (reader [.reset bytes] (some FibRegs.init) []).ru.ctl = .reset bytes :: [] ∧ bytes.length < 2 ^ 64)) = true := by
  decide

theorem witness_ResetPutsAUnitInItsResetState_writer :
    (writer [.reset] (some .wrbits) []).turn = .wu ∧ (writer [.reset] (some .wrbits) []).wu.ctl = .reset :: [] := by
  decide

theorem witness_StatusReadsAnswerTheRegisters_idle :
    [0, 1, 2, 3].all (fun n =>
      decide ((reader [.readStatus n] none []).turn = .ru ∧ (reader [.readStatus n] none []).ru.ctl = .readStatus n :: [] ∧
        (reader [.readStatus n] none []).ru.fib = none ∧ (writer [.readStatus n] none []).turn = .wu ∧
        (writer [.readStatus n] none []).wu.ctl = .readStatus n :: [] ∧
        (writer [.readStatus n] none []).wu.waiting = none)) = true := by decide

theorem witness_StatusReadsAnswerTheRegisters_busy :
    (reader [.readStatus 0] (some FibRegs.init) []).turn = .ru ∧
      (reader [.readStatus 0] (some FibRegs.init) []).ru.ctl = .readStatus 0 :: [] ∧
      (reader [.readStatus 0] (some FibRegs.init) []).ru.fib = some FibRegs.init ∧
      (writer [.readStatus 0] (some .wrstr) []).turn = .wu ∧
      (writer [.readStatus 0] (some .wrstr) []).wu.ctl = .readStatus 0 :: [] ∧
      (writer [.readStatus 0] (some .wrstr) []).wu.waiting = some .wrstr := by decide

/-- The reader hypothesis, after reset, within a byte, and past the end of the source: of RdbitAnswersTheNextStreamBit,
RdbitsPushesTheNextStreamBits, RdbyteAnswersTheNextEightBits, RdbytesPushesTheNextBytes, RdbufPushesTheNextBytes,
Rdb2AnswersTheNextBitsAsANumber, RdstrPushesTheBytesBeforeTheZero. -/
theorem witness_reader_ok :
    State.reset.ru.Ok ∧ (fresh [0xA5#8]).ru.Ok ∧ ((fresh [0xA5#8]).ru.advance 7).Ok ∧
      ((fresh [0xA5#8]).ru.advance 13).Ok := by decide

/-- The writer hypothesis, after reset, and with 1 and with 7 bits pending: of WrbitAppendsItsBit, WrbyteAppendsEightBits,
Wrb2AppendsTheLowBits, WrfibuAppendsTheCodeword, WrfibsAppendsTheCodeword, FlushEmitsThePaddedByte. -/
theorem witness_writer_ok :
    State.reset.wu.Ok ∧ (written [true]).wu.Ok ∧ (written [true, false, true, true, false, true, true]).wu.Ok := by
  decide

/-- The hypothesis on the word in every statement of a command: a word of each opcode. -/
theorem witness_opcodes :
    [0x01#8, 0x02#8, 0x03#8, 0x04#8, 0x05#8, 0x06#8, 0x07#8, 0x08#8, 0x11#8, 0x12#8, 0x13#8, 0x15#8, 0x16#8, 0x17#8,
      0x18#8, 0x19#8, 0x1A#8, 0x1B#8].all (fun b => decide (CmdWord.op (BitVec.ofNat 200 b.toNat) = b)) = true := by
  decide

/-- Descriptors at the edges that RDBUF and WRBUF accept: BulkDescriptorsAreChecked. -/
theorem witness_legal_descriptors :
    [((0, 0, 0) : Int × Int × Int), (4, 4, 0), (4, 0, 4), (4, 2, 2)].all (fun d =>
      decide (¬ (d.2.1 < 0 ∨ d.2.1 > d.1 ∨ d.2.2 < 0 ∨ d.2.1 + d.2.2 > d.1))) = true := by decide

/-- One descriptor for each clause of R222, at its boundary. -/
theorem witness_BulkDescriptorsAreChecked :
    [((4, -1, 0) : Int × Int × Int), (4, 5, 0), (4, 0, -1), (4, 2, 3)].all (fun d =>
      decide (d.2.1 < 0 ∨ d.2.1 > d.1 ∨ d.2.2 < 0 ∨ d.2.1 + d.2.2 > d.1)) = true := by decide

/-- A packet that holds a zero byte, and the packet with no data, before a writer in order: WrbitsAppendsThePayloadBits,
WrbufAppendsTheWindow, WrstrAppendsATerminatedString, BulkDescriptorsAreChecked, ExactlyOnePacketIsConsumed. -/
theorem witness_packets :
    (withPacket [0x41#8, 0x00#8, 0x42#8]).wu.Ok ∧ (withPacket []).wu.Ok ∧
      takePacket (withPacket [0x41#8, 0x00#8, 0x42#8]).wu.wstream = some ([0x41#8, 0x00#8, 0x42#8], []) ∧
      takePacket (withPacket []).wu.wstream = some ([], []) := by decide

/-- The lengths RDB2 accepts and refuses, at the edges: BitLengthIsCheckedOnReadingOnly. -/
theorem witness_bit_lengths :
    [(1 : Int), 64].all (fun n => decide (1 ≤ n ∧ n ≤ 64)) = true ∧
      [(0 : Int), 65, -1].all (fun n => decide (n < 1 ∨ n > 64)) = true := by decide

/-- V51, second codeword: after two bits of `D9` the pair of 1 bits ends at index 2. -/
theorem witness_RdfibAnswersTheCodewordAhead :
    ((fresh [0xD9#8, 0xD8#8]).ru.advance 2).Ok ∧
      ((fresh [0xD9#8, 0xD8#8]).ru.advance 2).pairAt ((fresh [0xD9#8, 0xD8#8]).ru.advance 2).bitpos 2 = true ∧
      ∀ j < 2, ((fresh [0xD9#8, 0xD8#8]).ru.advance 2).pairAt ((fresh [0xD9#8, 0xD8#8]).ru.advance 2).bitpos j = false := by
  decide

/-- V49: the empty source; a status read asserted, and no control action at all. -/
theorem witness_RdfibWithoutATerminatorNeverResponds :
    State.reset.ru.Ok ∧ (∀ t, State.reset.ru.pairAt State.reset.ru.bitpos t = false) ∧ State.reset.ru.ctl = [] ∧
      ∀ c ∈ (reader [.readStatus 0] none []).ru.ctl, ∃ n, c = .readStatus n := by
  refine ⟨by decide, fun t => ?_, rfl, by simp [reader]⟩
  simp [Reader.pairAt, Reader.streamBit_past (r := State.reset.ru) (Nat.zero_le _)]

/-- The codeword of 1 (R157, R87), whose sum is the least. -/
theorem witness_ACodewordCarriesAtLeastOne :
    (fresh [0xC0#8]).ru.Ok ∧ ∃ t, exec .rdfib (fresh [0xC0#8]) = .next t ∧
      t.ru.responses = (fresh [0xC0#8]).ru.responses ++ [⟨.ok, 1#64⟩] := ⟨by decide, _, rfl, rfl⟩

/-- At the end exactly (one byte read), and straddling it: 4 bits before the end, 8 wanted, 4 missing. -/
theorem witness_ReadsPastTheEndGiveZeros :
    ((fresh [0xA5#8]).ru.advance 8).Ok ∧
      8 * ((fresh [0xA5#8]).ru.advance 8).srcLen.toNat ≤ ((fresh [0xA5#8]).ru.advance 8).bitpos ∧
      4 ≤ 8 ∧ 8 ≤ 64 ∧
      8 * ((fresh [0xA5#8]).ru.advance 4).srcLen.toNat + 4 = ((fresh [0xA5#8]).ru.advance 4).bitpos + 8 := by decide

theorem witness_ReaderCommandsRespondOnce : Instr.rdstr.port = .ru ∧ Instr.rdstr ≠ .rdfib := by decide

theorem witness_ReaderCommandsTouchOnlyTheReader :
    Instr.rdfib.port = .ru ∧ ∃ t, exec .rdfib State.reset = .next t := ⟨rfl, _, rfl⟩

theorem witness_WriterCommandsTouchOnlyTheWriter :
    Instr.wrstr.port = .wu ∧ ∃ t, exec .wrstr (withPacket [0x41#8]) = .next t := ⟨rfl, _, rfl⟩

/-- Operands at the edges: WrfibsAppendsTheCodeword and PositivityIsCheckedOnTheSignedEntryOnly. -/
theorem witness_positive_operands :
    (0 : Int) < 1 ∧ (1 : Int) < 2 ^ 63 ∧ (0 : Int) < 2 ^ 63 - 1 ∧ ((2 : Int) ^ 63 - 1) < 2 ^ 63 ∧ (0 : Int) ≤ 0 := by
  decide

/-- On a byte boundary and off it; and both commands answer a next state. -/
theorem witness_FinishEmitsPendingBitsOnce :
    State.reset.wu.bitMask = 0x80#8 ∧ (written [true]).wu.bitMask ≠ 0x80#8 ∧
      (∃ t, exec .finish (written [true]) = .next t) ∧ ∃ t, exec .flush (written [true]) = .next t :=
  ⟨by decide, by decide, ⟨_, rfl⟩, ⟨_, rfl⟩⟩

/-- A null item before the last one; a command that takes no packet; a word the port does not assign. -/
theorem witness_ExactlyOnePacketIsConsumed :
    (∀ x ∈ ([⟨1#8, false, true⟩] : List Item), x.last = false) ∧ (⟨2#8, true, false⟩ : Item).last = true ∧
      (∀ c : PayloadCmd, Instr.flush ≠ c.instr) ∧ (∃ t, exec .flush State.reset = .next t) ∧
      (writer [] none [0x14#200]).turn = .wu ∧ (writer [] none [0x14#200]).wu.ctl = [] ∧
      (writer [] none [0x14#200]).wu.waiting = none ∧ (writer [] none [0x14#200]).wu.cmds = 0x14#200 :: [] ∧
      decode .wu 0x14#200 = .error (.unassignedOpcode .wu 0x14#8) :=
  ⟨by decide, rfl, fun c => by cases c <;> simp [PayloadCmd.instr], ⟨_, rfl⟩, rfl, rfl, rfl, rfl, by decide⟩

theorem witness_PositionCountsTheBitsWritten :
    (Instr.wrbit true).port = .wu ∧ Instr.wrbit true ≠ .flush ∧ Instr.wrbit true ≠ .finish ∧ (written [true]).wu.Ok ∧
      ∃ t, exec (.wrbit true) (written [true]) = .next t := ⟨by decide, by decide, by decide, by decide, _, rfl⟩

/-- The two commands that pad, with a bit pending. -/
theorem witness_PositionCountsTheBitsWritten_padding :
    (∃ t, exec .flush (written [true]) = .next t) ∧ ∃ t, exec .finish (written [true]) = .next t :=
  ⟨⟨_, rfl⟩, _, rfl⟩

theorem witness_FibCodeIsTheZeckendorfCodeword : 1 ≤ 1 ∧ 1 < 2 ^ 64 ∧ 1 ≤ 2 ^ 64 - 1 ∧ 2 ^ 64 - 1 < 2 ^ 64 := by decide

/-- The data bits of the codeword of 12 (R87). -/
theorem witness_EveryTerminatedStringIsACodeword :
    [true, false, true, false, true].getLast? = some true ∧
      (∀ j, ¬ ([true, false, true, false, true].getD j false = true ∧
        [true, false, true, false, true].getD (j + 1) false = true)) ∧
      fibSum 0 [true, false, true, false, true] < 2 ^ 64 := by
  refine ⟨rfl, fun j => ?_, by decide⟩
  match j with
  | 0 | 1 | 2 | 3 => decide
  | _ + 4 => simp

theorem witness_EveryStepKeepsTheInvariant :
    (reader [] none [0x01#200]).Ok ∧ ∃ t, step (reader [] none [0x01#200]) = .next t := ⟨by decide, _, rfl⟩

/-- Two machines with the same reader and different writers. -/
theorem witness_UnitsDoNotInfluenceEachOther_reader :
    State.reset.turn = .ru ∧ (written [true]).turn = .ru ∧ State.reset.ru = (written [true]).ru ∧
      State.reset.wu ≠ (written [true]).wu ∧ (∃ t, step State.reset = .next t) ∧ ∃ t, step (written [true]) = .next t :=
  ⟨rfl, rfl, rfl, by decide, ⟨_, rfl⟩, ⟨_, rfl⟩⟩

/-- Two machines with the same writer and different readers. -/
theorem witness_UnitsDoNotInfluenceEachOther_writer :
    (writer [] none []).turn = .wu ∧ ({ fresh [1#8] with turn := .wu } : State).turn = .wu ∧
      (writer [] none []).wu = (fresh [1#8]).wu ∧ (writer [] none []).ru ≠ (fresh [1#8]).ru ∧
      (∃ t, step (writer [] none []) = .next t) ∧ ∃ t, step { fresh [1#8] with turn := .wu } = .next t :=
  ⟨rfl, rfl, by decide, by decide, ⟨_, rfl⟩, ⟨_, rfl⟩⟩

theorem witness_TheSinkOnlyGrows : ∃ t, step (writer [.reset] none []) = .next t := ⟨_, rfl⟩

theorem witness_TheSourceIsImmutableBetweenResets :
    (∃ t, step (reader [.readStatus 1] none []) = .next t) ∧
      (∀ bytes rest, (reader [.readStatus 1] none []).ru.ctl ≠ .reset bytes :: rest) ∧
      (reader [.readStatus 1] none []).ru.Ok := ⟨⟨_, rfl⟩, by simp [reader], by decide⟩

/-- WRBIT 1 and FINISH presented, a status read asserted, WU to move: five steps, WU's move the first, third and fifth. -/
theorem witness_ACompleteWriterRunLeavesNoBitPending :
    (writer [.readStatus 0] none [0x111#200, 0x1B#200]).wu.Ok ∧
      (writer [.readStatus 0] none [0x111#200, 0x1B#200]).wu.waiting = none ∧
      (∀ c ∈ (writer [.readStatus 0] none [0x111#200, 0x1B#200]).wu.ctl, ∃ n, c = .readStatus n) ∧
      ∃ t, Host.Core.run Sys2Proof.core 5 (writer [.readStatus 0] none [0x111#200, 0x1B#200]) = .next t ∧
        Writer.complete [0x111#200, 0x1B#200] (writer [.readStatus 0] none [0x111#200, 0x1B#200]).wu t.wu = true :=
  ⟨by decide, rfl, by simp [writer], _, rfl, by decide⟩

/-- A WRBYTE alone, a run of no command, and FINISH presented but not accepted are no complete runs; FLUSH and its response
are one (R254). -/
theorem test_complete_writer_runs :
    Writer.complete [0xAB13#200] Writer.reset ((Writer.reset.writeByte 0xAB#8).respond .ok 0#64) = false ∧
      Writer.complete [] Writer.reset Writer.reset = false ∧
      Writer.complete [0x1B#200] Writer.reset { Writer.reset with cmds := [0x1B#200] } = false ∧
      Writer.complete [0x1A#200] Writer.reset (Writer.reset.emitPending.respond .ok 0#64) = true := by decide +kernel

/-- An error on each port, WRBUF's and another's, by its status and value. -/
theorem witness_ErrorsLeaveOnlyTheirResponse :
    (∃ t, exec (.rdb2 65) State.reset = .next t ∧ Status.outOfRange ≠ .ok ∧ (Instr.rdb2 65).port = .ru ∧
        t.ru.responses = State.reset.ru.responses ++ [⟨.outOfRange, 0#64⟩]) ∧
      (∃ t, exec (.wrbuf 1 1) (withPacket [1#8]) = .next t ∧ (Instr.wrbuf 1 1).port = .wu ∧
        t.wu.responses = (withPacket [1#8]).wu.responses ++ [⟨.outOfRange, 0#64⟩]) ∧
      ∃ t, exec (.wrfibs 0) State.reset = .next t ∧ (Instr.wrfibs 0).port = .wu ∧ (∀ o l, Instr.wrfibs 0 ≠ .wrbuf o l) ∧
        t.wu.responses = State.reset.wu.responses ++ [⟨.outOfRange, 0#64⟩] :=
  ⟨⟨_, rfl, by decide, rfl, rfl⟩, ⟨_, rfl, rfl, rfl⟩, _, rfl, rfl, by simp, rfl⟩

/-- V98: the codeword of 3 stands five bits into `D9 D8`. -/
theorem witness_FibonacciRoundTrip :
    ((fresh [0xD9#8, 0xD8#8]).ru.advance 5).Ok ∧ (3#64 : Word) ≠ 0#64 ∧
      ((fresh [0xD9#8, 0xD8#8]).ru.advance 5).streamBits ((fresh [0xD9#8, 0xD8#8]).ru.advance 5).bitpos
        (fibCode (3#64 : Word).toNat).length = fibCode (3#64 : Word).toNat := by decide +kernel

/-- E7's plan, with a bit run added; and the empty plan. -/
theorem witness_AnyPlanOfFieldsReadsBack :
    [[], [Field.bit true, .base2 8 32#64, .fib 21#64, .bytes [0x55#8, 0x32#8, 0xFF#8],
        .string [0x54#8, 0x65#8, 0x73#8, 0x74#8, 0x21#8], .byte 0xAB#8, .bits [true, false, true]]].all (fun plan =>
      plan.all Field.wellFormed && decide ((plan.flatMap Field.stream).length < 2 ^ 64)) = true := by decide +kernel

end Sys2Proof.Tests
end

/-! # Proofs of the family 30_encoding.md

The used bits of a command word (R103) and the payload packet a command consumes (R98). -/

namespace Sys2Proof

/-! ## A command word and its four fields -/

theorem assemble_fields (w : CmdWord) :
    assemble (CmdWord.op w) (CmdWord.arg0 w) (CmdWord.arg1 w) (CmdWord.arg2 w) = w := by
  apply BitVec.eq_of_getLsbD_eq
  intro i hi
  simp only [assemble, CmdWord.op, CmdWord.arg0, CmdWord.arg1, CmdWord.arg2, BitVec.getLsbD_append,
    BitVec.getLsbD_extractLsb']
  grind

theorem assemble_inj {op op' : Byte} {a a' b b' c c' : Word} :
    assemble op a b c = assemble op' a' b' c' ↔ op = op' ∧ a = a' ∧ b = b' ∧ c = c' := by
  refine ⟨fun h => ?_, fun ⟨hop, ha, hb, hc⟩ => by rw [hop, ha, hb, hc]⟩
  exact ⟨by simpa using congrArg CmdWord.op h, by simpa using congrArg CmdWord.arg0 h,
    by simpa using congrArg CmdWord.arg1 h, by simpa using congrArg CmdWord.arg2 h⟩

theorem assemble_and (op m : Byte) (a b c ma mb mc : Word) :
    assemble op a b c &&& assemble m ma mb mc = assemble (op &&& m) (a &&& ma) (b &&& mb) (c &&& mc) := by
  unfold assemble
  rw [← BitVec.and_append, ← BitVec.and_append, ← BitVec.and_append]

theorem CmdWord.op_eq_of_toNat {w : CmdWord} {n : Nat} (h : (CmdWord.op w).toNat = n) :
    CmdWord.op w = BitVec.ofNat 8 n := by
  rw [← h, BitVec.ofNat_toNat, BitVec.setWidth_eq]

/-! ## The used bits, field by field -/

/-- The masks of the three operand fields that a command uses (R100): what `usedBits` keeps beside `op`. -/
def usedArgs : Instr → Word × Word × Word
  | .rdbit | .rdbyte | .rdfib | .rdstr | .wrbits | .wrstr | .flush | .finish => (0#64, 0#64, 0#64)
  | .wrbit _ => (1#64, 0#64, 0#64)
  | .wrbyte _ => (0xFF#64, 0#64, 0#64)
  | .rdbits _ | .rdbytes _ | .rdb2 _ | .wrfibu _ | .wrfibs _ => (0xFFFFFFFFFFFFFFFF#64, 0#64, 0#64)
  | .wrbuf _ _ | .wrb2 _ _ => (0xFFFFFFFFFFFFFFFF#64, 0xFFFFFFFFFFFFFFFF#64, 0#64)
  | .rdbuf _ _ _ => (0xFFFFFFFFFFFFFFFF#64, 0xFFFFFFFFFFFFFFFF#64, 0xFFFFFFFFFFFFFFFF#64)

theorem usedBits_eq_assemble (i : Instr) :
    usedBits i = assemble (BitVec.allOnes 8) (usedArgs i).1 (usedArgs i).2.1 (usedArgs i).2.2 := by
  cases i <;> simp only [usedBits, usedArgs] <;> decide

/-- Masking a word with the used bits masks each operand field and keeps `op`. -/
theorem and_usedBits (w : CmdWord) (i : Instr) :
    w &&& usedBits i = assemble (CmdWord.op w) (CmdWord.arg0 w &&& (usedArgs i).1)
      (CmdWord.arg1 w &&& (usedArgs i).2.1) (CmdWord.arg2 w &&& (usedArgs i).2.2) := by
  rw [usedBits_eq_assemble, ← BitVec.and_allOnes (x := CmdWord.op w), ← assemble_and, assemble_fields]

theorem and_fullField (a : Word) : a &&& 0xFFFFFFFFFFFFFFFF#64 = a := BitVec.and_allOnes

theorem and_one_eq_zextBit (a : Word) : a &&& 1#64 = zextBit (a.getLsbD 0) := by
  rw [zextBit, BitVec.and_one_eq_setWidth_ofBool_getLsbD]
  cases a.getLsbD 0 <;> rfl

theorem and_byte_eq_setWidth (a : Word) : a &&& 0xFF#64 = (a.extractLsb' 0 8).setWidth 64 := by
  rw [show 0xFF#64 = (BitVec.allOnes 8).setWidth 64 from rfl]
  apply BitVec.eq_of_getLsbD_eq
  intro i hi
  simp only [BitVec.getLsbD_and, BitVec.getLsbD_setWidth, BitVec.getLsbD_extractLsb', BitVec.getLsbD_allOnes, hi]
  simp [Bool.and_comm]

theorem zextBit_inj {b b' : Bool} : zextBit b = zextBit b' ↔ b = b' := by
  cases b <;> cases b' <;> decide

theorem setWidth_byte_inj {b b' : Byte} : b.setWidth 64 = b'.setWidth 64 ↔ b = b' := by
  refine ⟨fun h => ?_, congrArg _⟩
  bv_omega

/-! ## A decoded word on its used bits (R103) -/

theorem encode_of_decode {p : Port} {w : CmdWord} {i : Instr} (h : decode p w = .ok i) :
    encode i = w &&& usedBits i := by
  rw [and_usedBits]
  cases p with
  | ru =>
    simp only [decode, decodeReader] at h
    split at h <;> cases h
    all_goals
      rename_i hop
      simp [encode, usedArgs, sint, and_fullField, CmdWord.op_eq_of_toNat hop]
  | wu =>
    simp only [decode, decodeWriter] at h
    split at h <;> cases h
    all_goals
      rename_i hop
      simp [encode, usedArgs, sint, and_fullField, and_one_eq_zextBit, and_byte_eq_setWidth,
        CmdWord.op_eq_of_toNat hop]

/-- In each arm of a decoder, agreement on the used bits is agreement on `op` and on every operand bit the arm reads. -/
theorem decode_of_agree {p : Port} {w w' : CmdWord} {i : Instr} (h : decode p w = .ok i)
    (agree : w' &&& usedBits i = w &&& usedBits i) : decode p w' = .ok i := by
  rw [and_usedBits, and_usedBits, assemble_inj] at agree
  obtain ⟨hop', harg0, harg1, harg2⟩ := agree
  cases p with
  | ru =>
    simp only [decode, decodeReader] at h
    split at h <;> cases h
    all_goals simp_all [decode, decodeReader, usedArgs, and_fullField]
  | wu =>
    simp only [decode, decodeWriter] at h
    split at h <;> cases h
    all_goals
      simp_all [decode, decodeWriter, usedArgs, and_fullField, and_one_eq_zextBit, and_byte_eq_setWidth,
        zextBit_inj, setWidth_byte_inj]

/-- Settles O5, by the four fields of the word: the used bits are `op` and the operand bits the decoder reads. -/
theorem unusedBitsAreIgnored : Obligations.UnusedBitsAreIgnored := by
  intro p w w' i h
  exact ⟨encode_of_decode h, decode_of_agree h⟩

/-! ## The payload packet (R98) -/

theorem PayloadCmd.instr_port (c : PayloadCmd) : c.instr.port = .wu := by
  cases c <;> rfl

end Sys2Proof

namespace Sys2Proof.Machine

/-- The data of a list of items, null items skipped, taken one item at a time. -/
theorem Item.bytes_append_data (x : Item) (xs : List Item) :
    x.bytes ++ ((xs.filter fun y => !y.null).map fun y => y.data) =
      ((x :: xs).filter fun y => !y.null).map fun y => y.data := by
  cases h : x.null <;> simp [Item.bytes, h]

theorem takePacket_append_last {items : List Item} {it : Item} (rest : List Item)
    (hitems : ∀ x ∈ items, x.last = false) (hit : it.last = true) :
    takePacket (items ++ it :: rest) =
      some (((items ++ [it]).filter fun x => !x.null).map fun x => x.data, rest) := by
  induction items with
  | nil => simpa [takePacket, hit] using it.bytes_append_data []
  | cons x xs ih =>
    obtain ⟨hx, hxs⟩ := List.forall_mem_cons.mp hitems
    rw [List.cons_append, List.cons_append, ← Item.bytes_append_data, takePacket, ih hxs]
    simp [hx]

theorem exec_payload_next (c : PayloadCmd) (s : State) : ∃ t, exec c.instr s = .next t := by
  cases c <;> exact ⟨_, rfl⟩

/-- A payload command whose packet is whole takes it and responds, on success and on OutOfRange alike. -/
theorem exec_payload_consumes {s : State} (c : PayloadCmd) {payload : List Byte} {rest : List Item}
    (hpacket : takePacket s.wu.wstream = some (payload, rest)) :
    ∃ t, exec c.instr s = .next t ∧ t.wu.wstream = rest ∧ t.wu.waiting = none ∧
      ∃ st, t.wu.responses = s.wu.responses ++ [⟨st, 0#64⟩] := by
  obtain ⟨t, ht⟩ := exec_payload_next c s
  refine ⟨t, ht, ?_⟩
  cases exec_writer_cases c.instr_port ht with
  | completed q noPacket => exact absurd rfl (noPacket c)
  | raised noPacket => exact absurd rfl (noPacket c)
  | waiting c' instr hnone => simp [hnone] at hpacket
  | completedWith c' instr payload' rest' q packet wrote eq =>
    cases packet.symm.trans hpacket
    subst eq
    exact ⟨by simp [wrote.wstream], by simp [wrote.waiting], .ok, by simp [wrote.responses]⟩
  | raisedWith c' instr payload' rest' packet eq =>
    cases packet.symm.trans hpacket
    subst eq
    exact ⟨rfl, rfl, .outOfRange, rfl⟩

/-- Every other command leaves the payload stream, and what the writer waits for, as they were. -/
theorem exec_noPacket_frame {s t : State} {i : Instr} (hi : ∀ c : PayloadCmd, i ≠ c.instr)
    (h : exec i s = .next t) : t.wu.wstream = s.wu.wstream ∧ t.wu.waiting = s.wu.waiting := by
  cases hport : i.port with
  | ru =>
    cases exec_reader_cases hport h with
    | completed q items value moved eq => simp [eq]
    | raised eq => simp [eq]
    | looping eq => simp [eq]
  | wu =>
    cases exec_writer_cases hport h with
    | completed q noPacket wrote eq => simp [eq, wrote.wstream, wrote.waiting]
    | raised noPacket eq => simp [eq]
    | waiting c instr => exact absurd instr (hi c)
    | completedWith c instr => exact absurd instr (hi c)
    | raisedWith c instr => exact absurd instr (hi c)

theorem step_writer_undecoded {s : State} {w : CmdWord} {rest : List CmdWord} {e : DecodeError}
    (hturn : s.turn = .wu) (hctl : s.wu.ctl = []) (hwaiting : s.wu.waiting = none) (hcmds : s.wu.cmds = w :: rest)
    (hdecode : decode .wu w = .error e) :
    step s = .next ((State.acceptWriter rest { s with turn := .ru }).raise .wu .illegalCommand) := by
  simp [step, stepWriter, hturn, hctl, hwaiting, hcmds, hdecode]

/-- Settles O41: the packet's extent by induction on the items before the last one, its consumption by the cases of a
writer command. -/
theorem exactlyOnePacketIsConsumed : Obligations.ExactlyOnePacketIsConsumed := by
  refine ⟨fun items it rest => takePacket_append_last rest, fun s c payload rest => exec_payload_consumes c,
    fun s t i => exec_noPacket_frame, ?_⟩
  intro s w rest e hturn hctl hwaiting hcmds hdecode
  exact ⟨_, step_writer_undecoded hturn hctl hwaiting hcmds hdecode, by simp⟩

end Sys2Proof.Machine

/-! # Proofs of the family 40_bit_reader.md

The reader's commands as one equation each, then their results in the stream (R121 to R129) and the one response of each
(R128). -/

namespace Sys2Proof.Machine

/-! ## One equation per command, from every state -/

theorem Reader.push_nil (r : Reader) : r.push [] = r := by
  simp [Reader.push]

theorem exec_rdbit (s : State) :
    exec .rdbit s = .next (s.completeReader s.ru.rdbit.2 [] (zextBit s.ru.rdbit.1)) := rfl

theorem exec_rdbits (count : Nat) (s : State) :
    exec (.rdbits count) s = .next (s.completeReader (s.ru.readBits count).2
      ((s.ru.readBits count).1.map fun b => if b then 0x01#8 else 0x00#8) (BitVec.ofNat 64 count)) := rfl

theorem exec_rdbyte (s : State) :
    exec .rdbyte s = .next (s.completeReader s.ru.readByte.2 [] (s.ru.readByte.1.setWidth 64)) := rfl

theorem exec_rdbytes (count : Nat) (s : State) :
    exec (.rdbytes count) s = .next (s.completeReader (s.ru.readBytes count).2 (s.ru.readBytes count).1
      (BitVec.ofNat 64 count)) := rfl

theorem exec_rdstr (s : State) :
    exec .rdstr s = .next (s.completeReader (s.ru.readString s.ru.stringFuel).2 (s.ru.readString s.ru.stringFuel).1
      (BitVec.ofNat 64 (s.ru.readString s.ru.stringFuel).1.length)) := rfl

theorem bulkOutOfRange_iff {buflen offset length : Int} :
    bulkOutOfRange buflen offset length = true ↔
      offset < 0 ∨ offset > buflen ∨ length < 0 ∨ offset + length > buflen := by
  simp [bulkOutOfRange, or_assoc]

theorem bitLengthInRange_iff {bitLength : Int} :
    bitLengthInRange bitLength = true ↔ ¬ (bitLength < 1 ∨ bitLength > 64) := by
  simp [bitLengthInRange]

/-- The descriptor check of RDBUF comes before any bit is read (R125, R222). -/
theorem exec_rdbuf_raises {buflen offset length : Int} (s : State)
    (bad : offset < 0 ∨ offset > buflen ∨ length < 0 ∨ offset + length > buflen) :
    exec (.rdbuf buflen offset length) s = .next (s.raise .ru .outOfRange) :=
  if_pos (bulkOutOfRange_iff.mpr bad)

theorem exec_rdbuf_completes {buflen offset length : Int} (s : State)
    (legal : ¬ (offset < 0 ∨ offset > buflen ∨ length < 0 ∨ offset + length > buflen)) :
    exec (.rdbuf buflen offset length) s = .next (s.completeReader (s.ru.readBytes length.toNat).2
      (s.ru.readBytes length.toNat).1 (BitVec.ofInt 64 length)) :=
  if_neg (mt bulkOutOfRange_iff.mp legal)

/-- The length check of RDB2 comes before any bit is read (R127, R221). -/
theorem exec_rdb2_raises {bitLength : Int} (s : State) (bad : bitLength < 1 ∨ bitLength > 64) :
    exec (.rdb2 bitLength) s = .next (s.raise .ru .outOfRange) :=
  if_neg fun inRange => bitLengthInRange_iff.mp inRange bad

theorem exec_rdb2_completes {bitLength : Int} (s : State) (legal : ¬ (bitLength < 1 ∨ bitLength > 64)) :
    exec (.rdb2 bitLength) s = .next (s.completeReader (s.ru.readBase2 bitLength.toNat).2 []
      (s.ru.readBase2 bitLength.toNat).1) :=
  if_pos (bitLengthInRange_iff.mpr legal)

/-! ## The size of what ReadBase2 accumulates, from every reader -/

theorem Reader.shiftIn_lt {v : Word} {m : Nat} (n : Nat) (r : Reader) (hv : v.toNat < 2 ^ m) :
    (r.shiftIn n v).1.toNat < 2 ^ (m + n) := by
  induction n generalizing v m r with
  | zero => exact hv
  | succ n ih =>
    have hstep : ((v <<< 1) ||| zextBit r.rdbit.1).toNat < 2 ^ (m + 1) := by
      have hbit := r.rdbit.1.toNat_le
      rw [shift_or_bit, BitVec.toNat_ofNat, pow_succ]
      exact (Nat.mod_le _ _).trans_lt (by omega)
    rw [Reader.shiftIn, Nat.add_comm n 1, ← Nat.add_assoc]
    exact ih r.rdbit.2 hstep

theorem Reader.readBase2_lt (n : Nat) (r : Reader) : (r.readBase2 n).1.toNat < 2 ^ n := by
  have h := r.shiftIn_lt (v := 0#64) (m := 0) n (by decide)
  rwa [Nat.zero_add] at h

/-- ReadByte's byte, zero-extended, is ReadBase2(8)'s number: the bits above the low 8 are 0 (R123). -/
theorem Reader.readByte_setWidth (r : Reader) : r.readByte.1.setWidth 64 = (r.readBase2 8).1 := by
  have hlt := r.readBase2_lt 8
  apply BitVec.eq_of_toNat_eq
  simp only [Reader.readByte, BitVec.toNat_setWidth, BitVec.extractLsb'_toNat, Nat.shiftRight_zero]
  omega

/-! ## The results in the stream (R121 to R129) -/

/-- Settles O15, by the micro-step's law. -/
theorem rdbitAnswersTheNextStreamBit : Obligations.RdbitAnswersTheNextStreamBit := by
  refine ⟨fun w hop => by simp [decode, decodeReader, hop], fun s hok => ?_⟩
  rw [exec_rdbit, Reader.rdbit_eq hok, State.completeReader, Reader.push_nil]
  rfl

/-- Settles O16, by the law of a run of micro-steps. -/
theorem rdbitsPushesTheNextStreamBits : Obligations.RdbitsPushesTheNextStreamBits := by
  refine ⟨fun w hop => by simp [decode, decodeReader, hop], fun s count hok => ?_⟩
  rw [exec_rdbits, Reader.readBits_eq hok, Reader.streamBits, List.map_map]
  rfl

/-- Settles O17, by the law of ReadByte where the reader is in order, and by the size of the accumulator in every
state. -/
theorem rdbyteAnswersTheNextEightBits : Obligations.RdbyteAnswersTheNextEightBits := by
  refine ⟨fun w hop => by simp [decode, decodeReader, hop], fun s hok => ?_, fun s => ?_⟩
  · rw [exec_rdbyte, Reader.readByte_eq hok, State.completeReader, Reader.push_nil]
  · rw [exec_rdbyte, Reader.readByte_setWidth, exec_rdb2_completes s (by decide)]
    rfl

/-- Settles O18, by the law of a run of bytes. -/
theorem rdbytesPushesTheNextBytes : Obligations.RdbytesPushesTheNextBytes := by
  refine ⟨fun w hop => by simp [decode, decodeReader, hop], fun s count hok => ?_⟩
  rw [exec_rdbytes, Reader.readBytes_eq hok, State.completeReader]

/-- Settles O19, by the two outcomes of the descriptor check. -/
theorem rdbufPushesTheNextBytes : Obligations.RdbufPushesTheNextBytes := by
  refine ⟨fun w hop => by simp [decode, decodeReader, sint, hop], fun s buflen offset length hok => ?_⟩
  split
  · rename_i bad
    rw [exec_rdbuf_raises s bad]
    rfl
  · rename_i legal
    rw [exec_rdbuf_completes s legal, Reader.readBytes_eq hok, State.completeReader]

/-- Settles O21, by the two outcomes of the length check; the bound is that of the bit string's value. -/
theorem rdb2AnswersTheNextBitsAsANumber : Obligations.Rdb2AnswersTheNextBitsAsANumber := by
  refine ⟨fun w hop => by simp [decode, decodeReader, sint, hop], fun s bitLength hok => ⟨?_, ?_⟩⟩
  · simpa only [Reader.streamBits_length] using bitsValue_lt (s.ru.streamBits s.ru.bitpos bitLength.toNat)
  · split
    · rename_i bad
      rw [exec_rdb2_raises s bad]
      rfl
    · rename_i legal
      rw [exec_rdb2_completes s legal, Reader.readBase2_eq hok, State.completeReader, Reader.push_nil]

/-- Settles O23: the `k` is the first zero byte's, which lies within the loop's fuel. -/
theorem rdstrPushesTheBytesBeforeTheZero : Obligations.RdstrPushesTheBytesBeforeTheZero := by
  refine ⟨fun w hop => by simp [decode, decodeReader, hop], fun s hok => ?_⟩
  obtain ⟨k, hfuel, hnonzero, hzero⟩ := s.ru.exists_first_zero
  refine ⟨k, hnonzero, hzero, ?_⟩
  rw [exec_rdstr, Reader.readString_eq hok hfuel hnonzero hzero, State.completeReader, List.length_map,
    List.length_range]

/-! ## The one response (R128) -/

/-- From every state a reader command but RDFIB completes with its registers moved, or raises OutOfRange on an operand
that fails its check. -/
theorem exec_reader_completes_or_raises {i : Instr} (s : State) (hport : i.port = .ru) (hfib : i ≠ .rdfib) :
    (∃ q items value, s.ru.Moved q ∧ exec i s = .next (s.completeReader q items value)) ∨
      exec i s = .next (s.raise .ru .outOfRange) ∧
        ((∃ n, i = .rdb2 n ∧ (n < 1 ∨ n > 64)) ∨
          ∃ b o l, i = .rdbuf b o l ∧ (o < 0 ∨ o > b ∨ l < 0 ∨ o + l > b)) := by
  cases i <;> simp only [Instr.port, reduceCtorEq] at hport
  case rdbit => exact .inl ⟨_, _, _, s.ru.rdbit_moved, exec_rdbit s⟩
  case rdbits count => exact .inl ⟨_, _, _, s.ru.readBits_moved count, exec_rdbits count s⟩
  case rdbyte => exact .inl ⟨_, _, _, s.ru.readByte_moved, exec_rdbyte s⟩
  case rdbytes count => exact .inl ⟨_, _, _, s.ru.readBytes_moved count, exec_rdbytes count s⟩
  case rdbuf b o l =>
    by_cases bad : o < 0 ∨ o > b ∨ l < 0 ∨ o + l > b
    · exact .inr ⟨exec_rdbuf_raises s bad, .inr ⟨b, o, l, rfl, bad⟩⟩
    · exact .inl ⟨_, _, _, s.ru.readBytes_moved _, exec_rdbuf_completes s bad⟩
  case rdb2 n =>
    by_cases bad : n < 1 ∨ n > 64
    · exact .inr ⟨exec_rdb2_raises s bad, .inl ⟨n, rfl, bad⟩⟩
    · exact .inl ⟨_, _, _, s.ru.readBase2_moved _, exec_rdb2_completes s bad⟩
  case rdfib => exact absurd rfl hfib
  case rdstr => exact .inl ⟨_, _, _, s.ru.readString_moved _, exec_rdstr s⟩

/-- Settles O28: completion and raise each add one response to those delivered before. -/
theorem readerCommandsRespondOnce : Obligations.ReaderCommandsRespondOnce := by
  intro i s hport hfib
  obtain ⟨q, items, value, moved, hexec⟩ | ⟨hexec, badOperand⟩ := exec_reader_completes_or_raises s hport hfib
  · exact ⟨_, .ok, value, hexec, by simp [moved.responses], .inl rfl⟩
  · exact ⟨_, .outOfRange, 0#64, hexec, by simp, .inr ⟨rfl, rfl, badOperand⟩⟩

end Sys2Proof.Machine

/-! # Proofs of the family 42_bit_writer.md

The writer's commands as one equation each, then their results in the stream (R171 to R178) and the two that emit the
pending byte (R179, R180). -/

namespace Sys2Proof.Machine

/-! ## One equation per command, from every state -/

/-- The writer whose command has taken its packet off `wstream` (R98). -/
def Writer.packetTaken (rest : List Item) (w : Writer) : Writer := { w with wstream := rest, waiting := none }

theorem Writer.packetTaken_ok {w : Writer} (rest : List Item) (h : w.Ok) : (w.packetTaken rest).Ok := h

theorem exec_wrbit (b : Bool) (s : State) : exec (.wrbit b) s = .next (s.completeWriter (s.wu.wrbit b)) := rfl

theorem exec_wrbyte (b : Byte) (s : State) : exec (.wrbyte b) s = .next (s.completeWriter (s.wu.writeByte b)) := rfl

theorem exec_wrb2 (value : Word) (bitLength : Int) (s : State) :
    exec (.wrb2 value bitLength) s = .next (s.completeWriter (s.wu.emitBase2 value bitLength.toNat)) := rfl

theorem exec_flush (s : State) : exec .flush s = .next (s.completeWriter s.wu.emitPending) := rfl

/-- On a byte boundary FINISH writes nothing (R180). -/
theorem exec_finish_boundary {s : State} (h : s.wu.bitMask = 0x80#8) :
    exec .finish s = .next (s.completeWriter s.wu) := by
  simp only [exec, execFinish, if_pos h]

/-- With bits pending FINISH is FLUSH (R180). -/
theorem exec_finish_pending {s : State} (h : s.wu.bitMask ≠ 0x80#8) : exec .finish s = exec .flush s := by
  simp only [exec, execFinish, execFlush, if_neg h]

section
variable {s : State} {payload : List Byte} {rest : List Item}
  (packet : takePacket s.wu.wstream = some (payload, rest))
include packet

theorem exec_wrbits_packet :
    exec .wrbits s = .next (s.completeWriter
      (Writer.writeBits (payload.map fun b => b.getLsbD 0) (s.wu.packetTaken rest))) := by
  simp only [exec, execWrbits, State.withPayload_some packet]
  rfl

theorem exec_wrstr_packet :
    exec .wrstr s = .next (s.completeWriter (Writer.writeString payload (s.wu.packetTaken rest))) := by
  simp only [exec, execWrstr, State.withPayload_some packet]
  rfl

/-- A bad descriptor takes the packet and writes nothing (R174, R222). -/
theorem exec_wrbuf_raises {offset length : Int}
    (bad : offset < 0 ∨ offset > payload.length ∨ length < 0 ∨ offset + length > payload.length) :
    exec (.wrbuf offset length) s =
      .next { s with wu := (s.wu.packetTaken rest).respond .outOfRange 0#64 } := by
  simp only [exec, execWrbuf, State.withPayload_some packet, if_pos (bulkOutOfRange_iff.mpr bad)]
  rfl

theorem exec_wrbuf_completes {offset length : Int}
    (legal : ¬ (offset < 0 ∨ offset > payload.length ∨ length < 0 ∨ offset + length > payload.length)) :
    exec (.wrbuf offset length) s = .next (s.completeWriter
      (Writer.writeBytes (window payload offset length) (s.wu.packetTaken rest))) := by
  simp only [exec, execWrbuf, State.withPayload_some packet, if_neg (mt bulkOutOfRange_iff.mp legal)]
  rfl

end

/-! ## The writer's bits and bytes -/

theorem Writer.pendingBits_length_lt {w : Writer} (h : w.Ok) : w.pendingBits.length < 8 := by
  rw [Writer.pendingBits_length h]
  exact ((oneHot_iff w.bitMask).mp h.1).2

/-- One byte more of bits emits exactly one byte, wherever the writer stands (R173). -/
theorem Writer.append_byte_sink_length {w : Writer} (h : w.Ok) (b : Byte) :
    (w.append (byteBits b)).sink.length = w.sink.length + 1 := by
  have hpending := Writer.pendingBits_length_lt h
  simp only [Writer.append, List.length_append, packBytes_length, byteBits_length]
  omega

/-- The pending byte is the pending bits padded with zeros (R90). -/
theorem Writer.byteBits_pendingByte {w : Writer} (h : w.Ok) :
    byteBits w.pendingByte = w.pendingBits ++ List.replicate (8 - w.pendingBits.length) false :=
  calc byteBits w.pendingByte = byteBits (packByte 8 w.pendingBits) := congrArg byteBits (Writer.pendingByte_eq h)
    _ = _ := byteBits_packByte_short (Writer.pendingBits_length_lt h)

/-- The window of a legal descriptor, index by index (R174). -/
theorem window_eq_map_getD {payload : List Byte} {offset length : Int}
    (legal : ¬ (offset < 0 ∨ offset > payload.length ∨ length < 0 ∨ offset + length > payload.length)) :
    window payload offset length =
      (List.range length.toNat).map fun j => payload.getD (offset.toNat + j) 0x00#8 := by
  have hlen : (window payload offset length).length = length.toNat := by
    rw [window, List.length_take, List.length_drop]
    omega
  apply List.ext_getElem
  · rw [hlen, List.length_map, List.length_range]
  · intro j hj _
    have hin : offset.toNat + j < payload.length := by omega
    simp [window, hin]

theorem bytesBits_terminated (bs : List Byte) : bytesBits (bs ++ [0x00#8]) = stringBits bs := by
  rw [bytesBits_append, bytesBits_cons]
  rfl

/-! ## The results in the stream (R171 to R178) -/

/-- Settles O30, by the micro-step's law. -/
theorem wrbitAppendsItsBit : Obligations.WrbitAppendsItsBit := by
  refine ⟨fun w hop => by simp [decode, decodeWriter, hop], fun s b hok => ?_⟩
  rw [exec_wrbit, Writer.wrbit_eq hok, State.completeWriter]

/-- Settles O31, by the law of a run of micro-steps on the writer that has taken the packet. -/
theorem wrbitsAppendsThePayloadBits : Obligations.WrbitsAppendsThePayloadBits := by
  refine ⟨fun w hop => by simp [decode, decodeWriter, hop], fun s payload rest hok packet => ?_⟩
  rw [exec_wrbits_packet packet, Writer.writeBits_eq (Writer.packetTaken_ok rest hok)]
  rfl

/-- Settles O32, by the law of a byte and the length of what 8 more bits pack to. -/
theorem wrbyteAppendsEightBits : Obligations.WrbyteAppendsEightBits := by
  refine ⟨fun w hop => by simp [decode, decodeWriter, hop], fun s b hok => ⟨?_, ?_⟩, fun s b => ?_⟩
  · rw [exec_wrbyte, Writer.writeByte_eq hok, State.completeWriter]
  · exact Writer.append_byte_sink_length hok b
  · rw [exec_wrbyte, exec_wrb2, Writer.writeByte]
    rfl

/-- Settles O33, by the two outcomes of the descriptor check. -/
theorem wrbufAppendsTheWindow : Obligations.WrbufAppendsTheWindow := by
  refine ⟨fun w hop => by simp [decode, decodeWriter, sint, hop],
    fun s offset length payload rest hok packet => ?_⟩
  split
  · rename_i bad
    exact exec_wrbuf_raises packet bad
  · rename_i legal
    rw [exec_wrbuf_completes packet legal, Writer.writeBytes_eq (Writer.packetTaken_ok rest hok),
      window_eq_map_getD legal]
    rfl

/-- Settles O34, by the law of EmitBase2, which has no check of its length. -/
theorem wrb2AppendsTheLowBits : Obligations.Wrb2AppendsTheLowBits := by
  refine ⟨fun w hop => by simp [decode, decodeWriter, sint, hop], fun s value bitLength hok => ?_⟩
  rw [exec_wrb2, Writer.emitBase2_eq hok, State.completeWriter, base2Bits]

/-- Settles O35, by the law of WRSTR's loop. -/
theorem wrstrAppendsATerminatedString : Obligations.WrstrAppendsATerminatedString := by
  refine ⟨fun w hop => by simp [decode, decodeWriter, hop], fun s payload rest hok packet => ?_⟩
  rw [exec_wrstr_packet packet, Writer.writeString_eq (Writer.packetTaken_ok rest hok), bytesBits_terminated]
  rfl

/-! ## The end of a stream (R179, R180) -/

/-- Settles O39: the padding is what stands at the mask and below, and the first FLUSH leaves 0x00 for the second. -/
theorem flushEmitsThePaddedByte : Obligations.FlushEmitsThePaddedByte := by
  refine ⟨fun w hop => by simp [decode, decodeWriter, hop], fun s hok => ⟨?_, ?_, ?_⟩⟩
  · exact Writer.byteBits_pendingByte hok
  · rw [exec_flush]
    rfl
  · simp only [execAll, exec_flush, State.completeWriter, Writer.respond, Writer.emitPending, Writer.sinkEmit,
      List.append_assoc, List.cons_append, List.nil_append]

/-- FINISH and FLUSH both leave the writer on a byte boundary. -/
theorem bitMask_of_finish_or_flush {s t : State} (h : exec .finish s = .next t ∨ exec .flush s = .next t) :
    t.wu.bitMask = 0x80#8 := by
  have flushed : exec .flush s = .next t → t.wu.bitMask = 0x80#8 := by
    intro hflush
    cases (exec_flush s).symm.trans hflush
    simp
  obtain hfinish | hflush := h
  · by_cases hmask : s.wu.bitMask = 0x80#8
    · cases (exec_finish_boundary hmask).symm.trans hfinish
      simpa using hmask
    · exact flushed ((exec_finish_pending hmask).symm.trans hfinish)
  · exact flushed hflush

/-- Settles O40, by the two cases of the mask; either command leaves the case of the boundary. -/
theorem finishEmitsPendingBitsOnce : Obligations.FinishEmitsPendingBitsOnce := by
  refine ⟨fun w hop => by simp [decode, decodeWriter, hop], fun s hmask => ?_, fun s hmask => ?_,
    fun s t h => ?_⟩
  · exact exec_finish_boundary hmask
  · rw [exec_finish_pending hmask, exec_flush]
    rfl
  · exact exec_finish_boundary (bitMask_of_finish_or_flush h)

end Sys2Proof.Machine

/-! # Proofs of the family 43_fib_encoder.md

The Fibonacci writer commands as equations, then their results in the stream (R204, R205). -/

namespace Sys2Proof.Machine

/-! ## One equation per outcome, from every state -/

theorem exec_wrfibu (value : Word) (s : State) :
    exec (.wrfibu value) s = .next (s.completeWriter (s.wu.writeBits (fibCode value.toNat))) := rfl

theorem notPositive_iff {value : Int} : notPositive value = true ↔ value ≤ 0 := decide_eq_true_iff

theorem exec_wrfibs_raises {value : Int} (s : State) (bad : value ≤ 0) :
    exec (.wrfibs value) s = .next { s with wu := s.wu.respond .outOfRange 0#64 } :=
  if_pos (notPositive_iff.mpr bad)

theorem exec_wrfibs_completes {value : Int} (s : State) (legal : ¬ value ≤ 0) :
    exec (.wrfibs value) s = .next (s.completeWriter (s.wu.writeBits (fibCode value.toNat))) :=
  if_neg (mt notPositive_iff.mp legal)

/-! ## The 64-bit pattern of a legal signed operand -/

/-- A positive i64 and its 64-bit pattern read as u64 are one number (R205). -/
theorem ofInt_toNat_of_pos {value : Int} (pos : 0 < value) (fits : value < 2 ^ 63) :
    (BitVec.ofInt 64 value).toNat = value.toNat := by
  rw [BitVec.toNat_ofInt]
  omega

/-! ## The results in the stream (R204, R205) -/

/-- Settles O36, by the law of a run of micro-steps. -/
theorem wrfibuAppendsTheCodeword : Obligations.WrfibuAppendsTheCodeword := by
  refine ⟨fun w hop => by simp [decode, decodeWriter, hop], fun s value hok => ?_⟩
  rw [exec_wrfibu, Writer.writeBits_eq hok, State.completeWriter]

/-- Settles O37, by the two outcomes of the positivity check; a legal operand and its pattern have one codeword. -/
theorem wrfibsAppendsTheCodeword : Obligations.WrfibsAppendsTheCodeword := by
  refine ⟨fun w hop => by simp [decode, decodeWriter, sint, hop], fun s value hok => ?_,
    fun s value pos fits => ?_⟩
  · split
    · rename_i bad
      exact exec_wrfibs_raises s bad
    · rename_i legal
      rw [exec_wrfibs_completes s legal, Writer.writeBits_eq hok, State.completeWriter]
  · rw [exec_wrfibs_completes s (Int.not_le.mpr pos), exec_wrfibu, ofInt_toNat_of_pos pos fits]

end Sys2Proof.Machine

/-! # Proofs of the family 60_exceptions.md

The operand checks are exact (R221 to R223): a bad operand raises OutOfRange, and on every other operand the command
completes and delivers OK. -/

namespace Sys2Proof.Machine

/-! ## The response of a command that completes -/

/-- A reader command that completes adds its OK response to those delivered before. -/
theorem Reader.Moved.completeReader_responses {s : State} {q : Reader} (moved : s.ru.Moved q) (items : List Byte)
    (value : Word) : (s.completeReader q items value).ru.responses = s.ru.responses ++ [⟨.ok, value⟩] := by
  simp [moved.responses]

/-- A writer command that completes, its packet taken or not, adds its OK response to those delivered before. -/
theorem Writer.Wrote.completeWriter_responses {s : State} {w q : Writer} (wrote : w.Wrote q)
    (hw : w.responses = s.wu.responses) :
    (s.completeWriter q).wu.responses = s.wu.responses ++ [⟨.ok, 0#64⟩] := by
  simp [wrote.responses, hw]

/-! ## The three causes of OutOfRange (R221 to R223) -/

/-- Settles O20, by the two outcomes of the descriptor check of each command. -/
theorem bulkDescriptorsAreChecked : Obligations.BulkDescriptorsAreChecked := by
  refine ⟨fun s buflen offset length bad => exec_rdbuf_raises s bad,
    fun s offset length payload rest packet bad => exec_wrbuf_raises packet bad,
    fun s buflen offset length legal => ?_, fun s offset length payload rest packet legal => ?_⟩
  · exact ⟨_, _, exec_rdbuf_completes s legal, (s.ru.readBytes_moved _).completeReader_responses _ _⟩
  · exact ⟨_, exec_wrbuf_completes packet legal, (Writer.writeBytes_wrote _ _).completeWriter_responses rfl⟩

/-- Settles O22: RDB2 has two outcomes by its length check, WRB2 one (R177). -/
theorem bitLengthIsCheckedOnReadingOnly : Obligations.BitLengthIsCheckedOnReadingOnly := by
  refine ⟨fun s bitLength bad => exec_rdb2_raises s bad, fun s bitLength atLeast atMost => ?_,
    fun s value bitLength => ?_⟩
  · have legal : ¬ (bitLength < 1 ∨ bitLength > 64) := by omega
    exact ⟨_, _, exec_rdb2_completes s legal, (s.ru.readBase2_moved _).completeReader_responses _ _⟩
  · exact ⟨_, exec_wrb2 value bitLength s, (s.wu.emitBase2_wrote _ _).completeWriter_responses rfl⟩

/-- Settles O38: WRFIBS has two outcomes by its positivity check, WRFIBU one, at 0 too (R206). -/
theorem positivityIsCheckedOnTheSignedEntryOnly : Obligations.PositivityIsCheckedOnTheSignedEntryOnly := by
  refine ⟨fun s value bad => exec_wrfibs_raises s bad, fun s value pos => ?_, fun s value => ?_⟩
  · exact ⟨_, exec_wrfibs_completes s (Int.not_le.mpr pos), (s.wu.writeBits_wrote _).completeWriter_responses rfl⟩
  · exact ⟨_, exec_wrfibu value s, (s.wu.writeBits_wrote _).completeWriter_responses rfl⟩

end Sys2Proof.Machine

/-! # Proofs of the family other: encoding

Decoding a command's word, and which opcodes a port assigns (R95, R100 to R102, R97). -/

namespace Sys2Proof

/-- The low bit of a bit moved as a 64-bit field (R100). -/
@[simp] theorem zextBit_getElem_zero (b : Bool) : (zextBit b)[0] = b := by
  cases b <;> rfl

/-- The low byte of a byte moved as a 64-bit field (R100). -/
@[simp] theorem setWidth_byte_extractLsb (b : Byte) : (b.setWidth 64).extractLsb' 0 8 = b := by
  apply BitVec.eq_of_toNat_eq
  simp [BitVec.extractLsb'_toNat, b.isLt]

/-- A count that fits u64 is what its field reads (R100). -/
theorem toNat_ofNat_of_fitsU64 {n : Nat} (h : fitsU64 n = true) : (BitVec.ofNat 64 n).toNat = n := by
  rw [BitVec.toNat_ofNat, Nat.mod_eq_of_lt (of_decide_eq_true h)]

/-- Settles O1: each command's word carries its opcode and its operands, each read back from a field it fits. -/
theorem decodeInvertsEncode : Obligations.DecodeInvertsEncode := by
  intro i hfits
  cases i <;> simp only [Instr.wellFormed, Bool.and_eq_true] at hfits
  case rdbits => simp [Instr.port, encode, decode, decodeReader, toNat_ofNat_of_fitsU64 hfits]
  case rdbytes => simp [Instr.port, encode, decode, decodeReader, toNat_ofNat_of_fitsU64 hfits]
  case rdbuf =>
    obtain ⟨⟨hbuflen, hoffset⟩, hlength⟩ := hfits
    simp [Instr.port, encode, decode, decodeReader, sint_ofInt hbuflen, sint_ofInt hoffset, sint_ofInt hlength]
  case rdb2 => simp [Instr.port, encode, decode, decodeReader, sint_ofInt hfits]
  case wrbuf =>
    obtain ⟨hoffset, hlength⟩ := hfits
    simp [Instr.port, encode, decode, decodeWriter, sint_ofInt hoffset, sint_ofInt hlength]
  case wrb2 => simp [Instr.port, encode, decode, decodeWriter, sint_ofInt hfits]
  case wrfibs => simp [Instr.port, encode, decode, decodeWriter, sint_ofInt hfits]
  case rdbit | rdbyte | rdfib | rdstr => simp [Instr.port, encode, decode, decodeReader]
  case wrbit | wrbits | wrbyte | wrfibu | wrstr | flush | finish => simp [Instr.port, encode, decode, decodeWriter]

/-- Settles O2: the words are closed, so both decoders compute on them. -/
theorem decodedWordsOfTheVectors : Obligations.DecodedWordsOfTheVectors := by
  unfold Obligations.DecodedWordsOfTheVectors
  decide

theorem decode_ru_isOk_iff (w : CmdWord) :
    (∃ i, decode .ru w = .ok i) ↔ 1 ≤ (CmdWord.op w).toNat ∧ (CmdWord.op w).toNat ≤ 8 := by
  simp only [decode, decodeReader]
  split <;> grind

theorem decode_wu_isOk_iff (w : CmdWord) :
    (∃ i, decode .wu w = .ok i) ↔
      0x11 ≤ (CmdWord.op w).toNat ∧ (CmdWord.op w).toNat ≤ 0x1B ∧ (CmdWord.op w).toNat ≠ 0x14 := by
  simp only [decode, decodeWriter]
  split <;> grind

/-- A port rejects a word in one way only: by its opcode's name (R102). -/
theorem decode_eq_error {p : Port} {w : CmdWord} (h : ¬ ∃ i, decode p w = .ok i) :
    decode p w = .error (.unassignedOpcode p (CmdWord.op w)) := by
  cases p <;> simp only [decode, decodeReader, decodeWriter] at h ⊢ <;> split <;> simp_all

/-- Settles O3: a port decodes exactly the opcodes of its table, and rejects a word in one way only. -/
theorem decodeAcceptsExactlyTheAssignedOpcodes : Obligations.DecodeAcceptsExactlyTheAssignedOpcodes := by
  refine ⟨fun w => ⟨(decode_ru_isOk_iff w).mpr, fun unassigned => ?_⟩,
    fun w => ⟨(decode_wu_isOk_iff w).mpr, fun unassigned => ?_⟩⟩
  · exact decode_eq_error (mt (decode_ru_isOk_iff w).mp unassigned)
  · exact decode_eq_error (mt (decode_wu_isOk_iff w).mp unassigned)

theorem fitsU64_toNat (a : Word) : fitsU64 a.toNat = true := decide_eq_true a.isLt

theorem decode_wellFormed {p : Port} {w : CmdWord} {i : Instr} (h : decode p w = .ok i) : i.wellFormed = true := by
  cases p with
  | ru =>
    simp only [decode, decodeReader] at h
    split at h <;> cases h <;> simp [Instr.wellFormed, fitsU64_toNat, sint_fitsI64]
  | wu =>
    simp only [decode, decodeWriter] at h
    split at h <;> cases h <;> simp [Instr.wellFormed, sint_fitsI64]

/-- Settles O4: every operand is read from a 64-bit field, in that field's range. -/
theorem decodedCommandIsWellFormed : Obligations.DecodedCommandIsWellFormed := by
  intro p w i h
  exact ⟨decode_wellFormed h, decode_ok_port h⟩

end Sys2Proof

namespace Sys2Proof.Machine

theorem Response.word_value (r : Response) : r.word.extractLsb' 0 64 = r.value := by
  exact BitVec.extractLsb'_append_eq_right

theorem Response.word_code (r : Response) : r.word.extractLsb' 64 2 = r.status.code := by
  exact BitVec.extractLsb'_append_eq_left

/-- Settles O8: the two fields of the port's word, and the code of each of the three statuses. -/
theorem responsesCarryTheirStatusCode : Obligations.ResponsesCarryTheirStatusCode := by
  intro r
  rw [Response.word_code]
  refine ⟨Response.word_value r, ?_⟩
  cases r.status <;> decide

end Sys2Proof.Machine

/-! # Proofs of the family other: the Fibonacci code

FibCode is Zeckendorf's decomposition, both ways (R86, R89, R201), and what the reference loop emits (R203). -/

namespace Sys2Proof.Machine

/-! ## The greedy walk, bit by bit -/

theorem fibWalk_succ_of_le {i r : Nat} (h : Nat.fib (i + 2) ≤ r) :
    fibWalk (i + 1) r = fibWalk i (r - Nat.fib (i + 2)) ++ [true] := if_pos h

theorem fibWalk_succ_of_lt {i r : Nat} (h : r < Nat.fib (i + 2)) : fibWalk (i + 1) r = fibWalk i r ++ [false] :=
  if_neg (Nat.not_le.mpr h)

/-- The remainder after a weight is taken lies below the next weight but one. -/
theorem sub_fib_lt {i r : Nat} (h : r < Nat.fib (i + 1 + 2)) (hle : Nat.fib (i + 2) ≤ r) :
    r - Nat.fib (i + 2) < Nat.fib (i + 1) := by
  have hadd : Nat.fib (i + 1 + 2) = Nat.fib (i + 1) + Nat.fib (i + 2) := Nat.fib_add_two
  omega

/-- A bit of a bit string one bit longer. -/
theorem getD_concat (bits : List Bool) (b : Bool) (j : Nat) :
    (bits ++ [b]).getD j false = if j = bits.length then b else bits.getD j false := by
  split
  · rename_i hj
    simp [hj]
  · rename_i hj
    by_cases hlt : j < bits.length
    · rw [List.getD_append _ _ _ _ hlt]
    · rw [List.getD_eq_default _ _ (by simp; omega), List.getD_eq_default _ _ (by omega)]

/-- Data bit `j` of the walk is 1 exactly when F(j + 2) is a term of the Zeckendorf decomposition (R86). -/
theorem fibWalk_getD_iff {i r : Nat} (h : r < Nat.fib (i + 2)) (j : Nat) :
    (fibWalk i r).getD j false = true ↔ j + 2 ∈ Nat.zeckendorf r := by
  induction i generalizing r with
  | zero =>
    have hr : r = 0 := by simpa using h
    simp [hr, fibWalk]
  | succ i ih =>
    by_cases hle : Nat.fib (i + 2) ≤ r
    · have hpos : 0 < r := (Nat.fib_pos.mpr (by omega)).trans_le hle
      have hgreatest : Nat.greatestFib r = i + 2 :=
        le_antisymm (Nat.lt_succ_iff.mp (Nat.greatestFib_lt.mpr h)) (Nat.le_greatestFib.mpr hle)
      have hrest : r - Nat.fib (i + 2) < Nat.fib (i + 2) := (sub_fib_lt h hle).trans_le (Nat.fib_mono (by omega))
      rw [fibWalk_succ_of_le hle, getD_concat, fibWalk_length, Nat.zeckendorf_of_pos hpos, hgreatest, List.mem_cons,
        ← ih hrest]
      by_cases hj : j = i <;> simp [hj]
    · have hlt : r < Nat.fib (i + 2) := Nat.not_le.mp hle
      rw [fibWalk_succ_of_lt hlt, getD_concat, fibWalk_length, ← ih hlt]
      split
      · rename_i hj
        simp [hj]
      · rfl

/-- The weight of a 1 bit of the walk is at most what the walk started from. -/
theorem fib_le_of_fibWalk_getD {i r j : Nat} (h : r < Nat.fib (i + 2)) (hj : (fibWalk i r).getD j false = true) :
    Nat.fib (j + 2) ≤ r := by
  have hmem : Nat.fib (j + 2) ∈ r.zeckendorf.map Nat.fib := List.mem_map_of_mem ((fibWalk_getD_iff h j).mp hj)
  simpa using List.le_sum_of_mem hmem

/-- No two adjacent bits are both 1 (R86). -/
def NoPair (bits : List Bool) : Prop := ∀ j, ¬ (bits.getD j false = true ∧ bits.getD (j + 1) false = true)

theorem noPair_concat_iff (bits : List Bool) (b : Bool) :
    NoPair (bits ++ [b]) ↔ NoPair bits ∧ ¬ (b = true ∧ bits.getLast? = some true) := by
  have hlast : bits.getLast? = some true ↔ ∃ m, bits.length = m + 1 ∧ bits.getD m false = true := by
    rcases List.eq_nil_or_concat bits with rfl | ⟨init, c, rfl⟩ <;> simp
  simp only [NoPair, getD_concat, hlast]
  grind [List.getD_eq_default]

theorem fibWalk_noPair {i r : Nat} (h : r < Nat.fib (i + 2)) : NoPair (fibWalk i r) := by
  induction i generalizing r with
  | zero => simp [NoPair, fibWalk]
  | succ i ih =>
    by_cases hle : Nat.fib (i + 2) ≤ r
    · have hrest := sub_fib_lt h hle
      have hrest' : r - Nat.fib (i + 2) < Nat.fib (i + 2) := hrest.trans_le (Nat.fib_mono (by omega))
      rw [fibWalk_succ_of_le hle, noPair_concat_iff]
      refine ⟨ih hrest', fun ⟨_, hlast⟩ => ?_⟩
      cases i with
      | zero => simp [fibWalk] at hlast
      | succ i =>
        have hbit : (fibWalk (i + 1) (r - Nat.fib (i + 1 + 2))).getD i false = true := by
          rw [List.getLast?_eq_getElem?, fibWalk_length] at hlast
          simpa [List.getD_eq_getElem?_getD] using congrArg (Option.getD · false) hlast
        exact absurd (fib_le_of_fibWalk_getD hrest' hbit) (Nat.not_le.mpr hrest)
    · have hlt : r < Nat.fib (i + 2) := Nat.not_le.mp hle
      rw [fibWalk_succ_of_lt hlt, noPair_concat_iff]
      exact ⟨ih hlt, by simp⟩

/-! ## FibCode of a value (R86) -/

/-- The number of data bits of a positive value is that of the largest weight not above it. -/
theorem fibCount_eq {v n : Nat} (h : v < 2 ^ 64) (hlow : Nat.fib (n + 1) ≤ v) (hhigh : v < Nat.fib (n + 2)) :
    fibCount v = n := by
  obtain ⟨hbelow, habove, _⟩ := fibCount_spec h
  have hle : fibCount v ≤ n := by
    by_contra hgt
    exact absurd (hbelow n (by omega)) (Nat.not_le.mpr hhigh)
  have hge : n ≤ fibCount v := by
    by_contra hlt
    exact absurd (habove.trans_le (Nat.fib_mono (by omega))) (Nat.not_lt.mpr hlow)
  omega

/-- The largest weight not above a positive value is F(n + 1) for `n` data bits, and `n` is not 0. -/
theorem fibCount_pos_and_fib_le {v : Nat} (hpos : 1 ≤ v) (h : v < 2 ^ 64) :
    ∃ m, fibCount v = m + 1 ∧ Nat.fib (m + 2) ≤ v := by
  obtain ⟨hbelow, habove, _⟩ := fibCount_spec h
  have hne : fibCount v ≠ 0 := fun h0 => by simp [h0] at habove; omega
  exact ⟨fibCount v - 1, by omega, hbelow _ (by omega)⟩

/-- Settles O45: the walk takes Zeckendorf's terms, the first of them the largest weight there is. -/
theorem fibCodeIsTheZeckendorfCodeword : Obligations.FibCodeIsTheZeckendorfCodeword := by
  intro v hpos h
  obtain ⟨_, habove, _⟩ := fibCount_spec h
  obtain ⟨m, hm, hle⟩ := fibCount_pos_and_fib_le hpos h
  refine ⟨fibWalk (fibCount v) v, rfl, ?_, ?_, fibWalk_getD_iff habove, fibWalk_sum habove, ?_, fibWalk_noPair habove⟩
  · rwa [fibWalk_length, hm]
  · rwa [fibWalk_length]
  · rw [hm, fibWalk_succ_of_le hle, List.getLast?_concat]

/-! ## Every terminated string (R89) -/

theorem fibSum_concat (bits : List Bool) (b : Bool) :
    fibSum 0 (bits ++ [b]) = fibSum 0 bits + if b then Nat.fib (bits.length + 2) else 0 := by
  simp [fibSum_append, fibSum]

/-- The weights of a bit string with no two adjacent 1 bits sum to less than the next weight, to less than the last one
where the last bit is 0. -/
theorem fibSum_lt {bits : List Bool} (h : NoPair bits) :
    fibSum 0 bits < Nat.fib (bits.length + 2) ∧
      (bits.getLast? ≠ some true → fibSum 0 bits < Nat.fib (bits.length + 1)) := by
  induction bits using List.reverseRecOn with
  | nil => simp [fibSum]
  | append_singleton bits b ih =>
    obtain ⟨hbits, hpair⟩ := (noPair_concat_iff bits b).mp h
    obtain ⟨hlt, hltLast⟩ := ih hbits
    have hadd : Nat.fib (bits.length + 1 + 2) = Nat.fib (bits.length + 1) + Nat.fib (bits.length + 2) := Nat.fib_add_two
    rw [fibSum_concat, List.length_append, List.length_singleton, List.getLast?_concat]
    cases b with
    | false =>
      simp only [Bool.false_eq_true, if_false, Nat.add_zero]
      exact ⟨by omega, fun _ => hlt⟩
    | true =>
      have := hltLast fun hlast => hpair ⟨rfl, hlast⟩
      simp only [if_true]
      exact ⟨by omega, fun hne => absurd rfl hne⟩

/-- The greedy walk on the sum of a bit string with no two adjacent 1 bits gives the bit string back: Zeckendorf's
uniqueness, as the walk meets it. -/
theorem fibWalk_fibSum {bits : List Bool} (h : NoPair bits) : fibWalk bits.length (fibSum 0 bits) = bits := by
  induction bits using List.reverseRecOn with
  | nil => rfl
  | append_singleton bits b ih =>
    obtain ⟨hbits, _⟩ := (noPair_concat_iff bits b).mp h
    rw [fibSum_concat, List.length_append, List.length_singleton]
    cases b with
    | false =>
      rw [if_neg Bool.false_ne_true]
      exact (fibWalk_succ_of_lt (fibSum_lt hbits).1).trans (congrArg (· ++ [false]) (ih hbits))
    | true => rw [if_pos rfl, fibWalk_succ_of_le (Nat.le_add_left _ _), Nat.add_sub_cancel, ih hbits]

/-- Settles O46: a string's sum lies between its last weight and the next, so the walk starts at its length. -/
theorem everyTerminatedStringIsACodeword : Obligations.EveryTerminatedStringIsACodeword := by
  refine ⟨fun data hlast hpair h => ?_, by decide⟩
  have hlow : Nat.fib (data.length + 1) ≤ fibSum 0 data := by
    obtain ⟨bits, rfl⟩ := List.getLast?_eq_some_iff.mp hlast
    simp [fibSum_concat]
  rw [fibCode, fibCount_eq h hlow (fibSum_lt hpair).1, fibWalk_fibSum hpair]

/-! ## The reference loop (R203) -/

/-- The weights the loop's 64-bit registers hold are below 2^64. -/
theorem fib_lt_word {n : Nat} (h : n ≤ 93) : Nat.fib n < 2 ^ 64 :=
  (Nat.fib_mono h).trans_lt (by decide)

/-- The 64-bit register that holds F(n). -/
def fibWord (n : Nat) : Word := BitVec.ofNat 64 (Nat.fib n)

theorem fibWord_toNat {n : Nat} (h : n ≤ 93) : (fibWord n).toNat = Nat.fib n :=
  Nat.mod_eq_of_lt (fib_lt_word h)

theorem fibWord_add (n : Nat) : fibWord n + fibWord (n + 1) = fibWord (n + 2) := by
  simp only [fibWord, Nat.fib_add_two, BitVec.ofNat_add]

theorem fibWord_sub (n : Nat) : fibWord (n + 2) - fibWord (n + 1) = fibWord n := by
  rw [← fibWord_add, BitVec.add_sub_cancel]

/-- The working registers after `j` steps of the search. -/
def EncRegs.searched (value : Word) (j : Nat) : EncRegs :=
  { ea := fibWord j, eb := fibWord (j + 1), n := j, code := 0, rem := value }

/-- The comparison on the 65-bit sum is the comparison of the numbers (R207). -/
theorem sum_le_iff (value : Word) {j : Nat} (h : j ≤ 92) :
    (fibWord j).setWidth 65 + (fibWord (j + 1)).setWidth 65 ≤ value.setWidth 65 ↔ Nat.fib (j + 2) ≤ value.toNat := by
  have h0 := fib_lt_word (show j ≤ 93 by omega)
  have h1 := fib_lt_word (show j + 1 ≤ 93 by omega)
  have hv := value.isLt
  rw [BitVec.le_def, BitVec.toNat_add, BitVec.toNat_setWidth, BitVec.toNat_setWidth, BitVec.toNat_setWidth,
    fibWord_toNat (by omega), fibWord_toNat (by omega), Nat.fib_add_two]
  omega

theorem EncRegs.search_searched (value : Word) (fuel : Nat) {j : Nat} (h : j ≤ 92) :
    EncRegs.search value (fuel + 1) (searched value j)
      = if Nat.fib (j + 2) ≤ value.toNat then EncRegs.search value fuel (searched value (j + 1))
        else searched value j := by
  simp only [EncRegs.search, searched, sum_le_iff value h, fibWord_add]

/-- The search stops at the number of data bits. -/
theorem EncRegs.search_eq (value : Word) {fuel j : Nat} (hj : j ≤ fibCount value.toNat)
    (hfuel : fibCount value.toNat < j + fuel) :
    EncRegs.search value fuel (searched value j) = searched value (fibCount value.toNat) := by
  obtain ⟨hbelow, habove, h92⟩ := fibCount_spec value.isLt
  induction fuel generalizing j with
  | zero => omega
  | succ fuel ih =>
    rw [search_searched value fuel (by omega)]
    rcases Nat.lt_or_eq_of_le hj with hlt | rfl
    · rw [if_pos (hbelow j hlt), ih (by omega) (by omega)]
    · rw [if_neg (Nat.not_le.mpr habove)]

/-- The code register's bit `i` alone. -/
theorem one_shiftLeft_getLsbD (i : Nat) {j : Nat} (hj : j < Config.codeWidth) :
    (1#Config.codeWidth <<< i).getLsbD j = decide (j = i) := by
  rw [BitVec.getLsbD_shiftLeft, BitVec.getLsbD_one]
  grind

/-- The walk adds to the code register exactly the bits of the greedy walk. -/
theorem EncRegs.walk_code {i : Nat} (h : i ≤ 92) (e : EncRegs) (ha : e.ea = fibWord i) (hb : e.eb = fibWord (i + 1))
    {j : Nat} (hj : j < Config.codeWidth) :
    (EncRegs.walk i e).code.getLsbD j = (e.code.getLsbD j || (fibWalk i e.rem.toNat).getD j false) := by
  induction i generalizing e with
  | zero => simp [EncRegs.walk, fibWalk]
  | succ i ih =>
    have hsub : e.eb - e.ea = fibWord i := by rw [ha, hb, fibWord_sub]
    have hle : e.eb ≤ e.rem ↔ Nat.fib (i + 2) ≤ e.rem.toNat := by
      rw [hb, BitVec.le_def, fibWord_toNat (by omega)]
    rw [EncRegs.walk]
    split
    · rename_i htaken
      have hrem : (e.rem - e.eb).toNat = e.rem.toNat - Nat.fib (i + 2) := by
        rw [BitVec.toNat_sub_of_le htaken, hb, fibWord_toNat (by omega)]
      rw [ih (by omega) _ hsub ha, fibWalk_succ_of_le (hle.mp htaken), getD_concat, fibWalk_length]
      simp only [hrem]
      rw [BitVec.getLsbD_or, one_shiftLeft_getLsbD i hj]
      by_cases hji : j = i <;> simp [hji]
    · rename_i hskipped
      rw [ih (by omega) _ hsub ha, fibWalk_succ_of_lt (Nat.not_le.mp (mt hle.mpr hskipped)), getD_concat,
        fibWalk_length]
      split
      · rename_i hji
        simp [hji]
      · rfl

/-- The working registers at the start of the walk: the terminator's bit stands in the code register. -/
def EncRegs.marked (value : Word) (n : Nat) : EncRegs :=
  { searched value n with code := 1#Config.codeWidth <<< n }

theorem fibEncodeLoop_eq (value : Word) :
    fibEncodeLoop value = (List.range (fibCount value.toNat + 1)).map fun j =>
      (EncRegs.walk (fibCount value.toNat) (EncRegs.marked value (fibCount value.toNat))).code.getLsbD j := by
  obtain ⟨_, _, h92⟩ := fibCount_spec value.isLt
  have hsearch : EncRegs.search value Config.codeWidth { ea := 0#64, eb := 1#64, n := 0, code := 0, rem := value }
      = EncRegs.searched value (fibCount value.toNat) :=
    EncRegs.search_eq value (Nat.zero_le _) (by simp only [Config.codeWidth]; omega)
  simp only [fibEncodeLoop, hsearch]
  rfl

/-- Settles O47: the search stops where FibCode starts its walk, and the two walks take the same weights. -/
theorem referenceEncoderMeetsFibCode : Obligations.ReferenceEncoderMeetsFibCode := by
  intro value
  obtain ⟨_, _, h92⟩ := fibCount_spec value.isLt
  rw [fibEncodeLoop_eq]
  apply List.ext_getElem
  · simp [fibCode]
  · intro j hj hj'
    have hbit : j < Config.codeWidth := by
      simp only [List.length_map, List.length_range] at hj
      simp only [Config.codeWidth]
      omega
    rw [List.getElem_map, List.getElem_range, EncRegs.walk_code h92 _ rfl rfl hbit, ← List.getD_eq_getElem _ false hj',
      fibCode, getD_concat, fibWalk_length, EncRegs.marked, one_shiftLeft_getLsbD _ hbit]
    by_cases hlast : j = fibCount value.toNat <;> simp [hlast, EncRegs.searched]

end Sys2Proof.Machine

/-! # Proofs of the family other: commands and steps

Every command and every step answers a next state; a unit's command and a unit's move touch that unit alone (R20, R63);
what a step is in each situation of a unit (R36, R40, R96, R98, R224, R251). -/

namespace Sys2Proof.Machine

/-! ## Every command answers a next state -/

theorem exec_rdfib_completes {s : State} {x : Word × Reader}
    (h : s.ru.fibDecode s.ru.fibFuel FibRegs.init = some x) :
    exec .rdfib s = .next (s.completeReader x.2 [] x.1) := by
  simp only [exec, execRdfib, h]

/-- With no terminator ahead RDFIB enters its loop (R155). -/
theorem exec_rdfib_loops {s : State} (h : s.ru.fibDecode s.ru.fibFuel FibRegs.init = none) :
    exec .rdfib s = .next { s with ru := { s.ru with fib := some FibRegs.init } } := by
  simp only [exec, execRdfib, h]

theorem exec_reader_next {i : Instr} (s : State) (hport : i.port = .ru) : ∃ t, exec i s = .next t := by
  by_cases hfib : i = .rdfib
  · subst hfib
    cases h : s.ru.fibDecode s.ru.fibFuel FibRegs.init with
    | none => exact ⟨_, exec_rdfib_loops h⟩
    | some x => exact ⟨_, exec_rdfib_completes h⟩
  · obtain ⟨q, items, value, _, h⟩ | ⟨h, _⟩ := exec_reader_completes_or_raises s hport hfib
    · exact ⟨_, h⟩
    · exact ⟨_, h⟩

theorem exec_writer_next {i : Instr} (s : State) (hport : i.port = .wu) : ∃ t, exec i s = .next t := by
  cases i <;> simp only [Instr.port, reduceCtorEq] at hport
  case wrbits => exact exec_payload_next .wrbits s
  case wrbuf offset length => exact exec_payload_next (.wrbuf offset length) s
  case wrstr => exact exec_payload_next .wrstr s
  case wrfibs value =>
    by_cases bad : value ≤ 0
    · exact ⟨_, exec_wrfibs_raises s bad⟩
    · exact ⟨_, exec_wrfibs_completes s bad⟩
  all_goals exact ⟨_, rfl⟩

theorem exec_next (i : Instr) (s : State) : ∃ t, exec i s = .next t := by
  cases hport : i.port with
  | ru => exact exec_reader_next s hport
  | wu => exact exec_writer_next s hport

/-! ## The frame of a command -/

/-- The fields of the reader that no command touches, and the two records that only grow. -/
theorem exec_reader_frame {i : Instr} {s t : State} (hport : i.port = .ru) (h : exec i s = .next t) :
    t.wu = s.wu ∧ t.turn = s.turn ∧ t.ru.source = s.ru.source ∧ t.ru.srcLen = s.ru.srcLen ∧ t.ru.ctl = s.ru.ctl ∧
      t.ru.cmds = s.ru.cmds ∧ t.ru.statusOut = s.ru.statusOut ∧ t.ru.draws = s.ru.draws ∧
      s.ru.rstream <+: t.ru.rstream ∧ s.ru.responses <+: t.ru.responses := by
  cases exec_reader_cases hport h with
  | completed q items value moved eq =>
    subst eq
    simp [moved.source, moved.srcLen, moved.ctl, moved.cmds, moved.statusOut, moved.draws, moved.rstream,
      moved.responses]
  | raised eq => subst eq; simp
  | looping eq => subst eq; simp

/-- Only RDFIB enters its loop. -/
theorem exec_reader_fib {i : Instr} {s t : State} (hport : i.port = .ru) (hfib : i ≠ .rdfib)
    (h : exec i s = .next t) : t.ru.fib = s.ru.fib := by
  obtain ⟨q, items, value, moved, heq⟩ | ⟨heq, _⟩ := exec_reader_completes_or_raises s hport hfib
  · cases h.symm.trans heq
    simp [moved.fib]
  · cases h.symm.trans heq
    simp

/-- Settles O29, by the cases of a reader command. -/
theorem readerCommandsTouchOnlyTheReader : Obligations.ReaderCommandsTouchOnlyTheReader := by
  intro i s t hport h
  obtain ⟨hwu, hturn, hsource, hlen, hctl, hcmds, hstatus, hdraws, hitems, hresponses⟩ := exec_reader_frame hport h
  exact ⟨hwu, hturn, hsource, hlen, Reader.fetch_congr hsource hlen, hctl, hcmds, hstatus, hdraws,
    fun hfib => exec_reader_fib hport hfib h, hitems, hresponses⟩

theorem exec_writer_frame {i : Instr} {s t : State} (hport : i.port = .wu) (h : exec i s = .next t) :
    t.ru = s.ru ∧ t.turn = s.turn ∧ t.wu.ctl = s.wu.ctl ∧ t.wu.cmds = s.wu.cmds ∧ t.wu.statusOut = s.wu.statusOut ∧
      t.wu.draws = s.wu.draws ∧ s.wu.sink <+: t.wu.sink ∧ s.wu.responses <+: t.wu.responses := by
  cases exec_writer_cases hport h with
  | completed q noPacket wrote eq =>
    subst eq
    simpa [wrote.ctl, wrote.cmds, wrote.statusOut, wrote.draws, wrote.responses] using wrote.2
  | raised noPacket eq => subst eq; simp
  | waiting c instr none eq => subst eq; simp
  | completedWith c instr payload rest q packet wrote eq =>
    subst eq
    simpa [wrote.ctl, wrote.cmds, wrote.statusOut, wrote.draws, wrote.responses] using wrote.2
  | raisedWith c instr payload rest packet eq => subst eq; simp

/-- Settles O43, by the cases of a writer command. -/
theorem writerCommandsTouchOnlyTheWriter : Obligations.WriterCommandsTouchOnlyTheWriter :=
  fun _ _ _ => exec_writer_frame

/-! ## A command's result does not depend on the other unit or on the turn -/

theorem exec_reader_replace {i : Instr} {s t : State} (hport : i.port = .ru) (h : exec i s = .next t) (w : Writer)
    (p : Port) : exec i { s with wu := w, turn := p } = .next { t with wu := w, turn := p } := by
  cases i <;> simp only [Instr.port, reduceCtorEq] at hport
  case rdbuf b o l =>
    by_cases bad : o < 0 ∨ o > b ∨ l < 0 ∨ o + l > b
    · cases (exec_rdbuf_raises s bad).symm.trans h
      exact exec_rdbuf_raises _ bad
    · cases (exec_rdbuf_completes s bad).symm.trans h
      exact exec_rdbuf_completes _ bad
  case rdb2 n =>
    by_cases bad : n < 1 ∨ n > 64
    · cases (exec_rdb2_raises s bad).symm.trans h
      exact exec_rdb2_raises _ bad
    · cases (exec_rdb2_completes s bad).symm.trans h
      exact exec_rdb2_completes _ bad
  case rdfib =>
    cases hx : s.ru.fibDecode s.ru.fibFuel FibRegs.init with
    | none =>
      cases (exec_rdfib_loops hx).symm.trans h
      exact exec_rdfib_loops hx
    | some x =>
      cases (exec_rdfib_completes hx).symm.trans h
      exact exec_rdfib_completes hx
  all_goals
    cases h
    rfl

theorem withPayload_replace (c : PayloadCmd) {effect : List Byte → State → State} (s : State) (r : Reader) (p : Port)
    (heffect : ∀ payload t,
      effect payload { t with ru := r, turn := p } = { effect payload t with ru := r, turn := p }) :
    State.withPayload c effect { s with ru := r, turn := p } = { s.withPayload c effect with ru := r, turn := p } := by
  obtain ⟨hnone, h⟩ | ⟨payload, rest, packet, h⟩ := s.withPayload_cases c effect
  · rw [h]
    exact State.withPayload_none hnone
  · rw [h, ← heffect]
    exact State.withPayload_some packet

theorem exec_writer_replace {i : Instr} {s t : State} (hport : i.port = .wu) (h : exec i s = .next t) (r : Reader)
    (p : Port) : exec i { s with ru := r, turn := p } = .next { t with ru := r, turn := p } := by
  cases i <;> simp only [Instr.port, reduceCtorEq] at hport
  case wrbits =>
    cases h
    exact congrArg _ (withPayload_replace _ s r p fun _ _ => rfl)
  case wrstr =>
    cases h
    exact congrArg _ (withPayload_replace _ s r p fun _ _ => rfl)
  case wrbuf =>
    cases h
    refine congrArg _ (withPayload_replace _ s r p fun payload t => ?_)
    simp only
    split <;> rfl
  case wrfibs value =>
    by_cases bad : value ≤ 0
    · cases (exec_wrfibs_raises s bad).symm.trans h
      exact exec_wrfibs_raises _ bad
    · cases (exec_wrfibs_completes s bad).symm.trans h
      exact exec_wrfibs_completes _ bad
  all_goals
    cases h
    rfl

/-! ## A unit's move -/

theorem step_of_turn_ru {s : State} (h : s.turn = .ru) : step s = stepReader { s with turn := .wu } := by
  simp only [step, h]

theorem step_of_turn_wu {s : State} (h : s.turn = .wu) : step s = stepWriter { s with turn := .ru } := by
  simp only [step, h]

section
variable {s : State}

theorem stepReader_served {c : ReaderControl} {rest : List ReaderControl} (hctl : s.ru.ctl = c :: rest) :
    stepReader s = .next { s with ru := Reader.serve c { s.ru with ctl := rest } } := by
  simp only [stepReader, hctl]

theorem stepReader_looped {f : FibRegs} (hctl : s.ru.ctl = []) (hfib : s.ru.fib = some f) :
    stepReader s = .next (s.continueFib f) := by
  simp only [stepReader, hctl, hfib]

theorem stepReader_idle (hctl : s.ru.ctl = []) (hfib : s.ru.fib = none) (hcmds : s.ru.cmds = []) :
    stepReader s = .next s := by
  simp only [stepReader, hctl, hfib, hcmds]

theorem stepReader_ran {w : CmdWord} {rest : List CmdWord} {i : Instr} (hctl : s.ru.ctl = []) (hfib : s.ru.fib = none)
    (hcmds : s.ru.cmds = w :: rest) (hdecode : decode .ru w = .ok i) :
    stepReader s = exec i (s.acceptReader rest) := by
  simp only [stepReader, hctl, hfib, hcmds, hdecode]

theorem stepReader_raised {w : CmdWord} {rest : List CmdWord} {e : DecodeError} (hctl : s.ru.ctl = [])
    (hfib : s.ru.fib = none) (hcmds : s.ru.cmds = w :: rest) (hdecode : decode .ru w = .error e) :
    stepReader s = .next ((s.acceptReader rest).raise .ru .illegalCommand) := by
  simp only [stepReader, hctl, hfib, hcmds, hdecode]

theorem stepWriter_served {c : WriterControl} {rest : List WriterControl} (hctl : s.wu.ctl = c :: rest) :
    stepWriter s = .next { s with wu := Writer.serve c { s.wu with ctl := rest } } := by
  simp only [stepWriter, hctl]

theorem stepWriter_resumed {c : PayloadCmd} (hctl : s.wu.ctl = []) (hwaiting : s.wu.waiting = some c) :
    stepWriter s = exec c.instr s := by
  simp only [stepWriter, hctl, hwaiting]

theorem stepWriter_idle (hctl : s.wu.ctl = []) (hwaiting : s.wu.waiting = none) (hcmds : s.wu.cmds = []) :
    stepWriter s = .next s := by
  simp only [stepWriter, hctl, hwaiting, hcmds]

theorem stepWriter_ran {w : CmdWord} {rest : List CmdWord} {i : Instr} (hctl : s.wu.ctl = [])
    (hwaiting : s.wu.waiting = none) (hcmds : s.wu.cmds = w :: rest) (hdecode : decode .wu w = .ok i) :
    stepWriter s = exec i (s.acceptWriter rest) := by
  simp only [stepWriter, hctl, hwaiting, hcmds, hdecode]

theorem stepWriter_raised {w : CmdWord} {rest : List CmdWord} {e : DecodeError} (hctl : s.wu.ctl = [])
    (hwaiting : s.wu.waiting = none) (hcmds : s.wu.cmds = w :: rest) (hdecode : decode .wu w = .error e) :
    stepWriter s = .next ((s.acceptWriter rest).raise .wu .illegalCommand) := by
  simp only [stepWriter, hctl, hwaiting, hcmds, hdecode]

end

theorem stepReader_next (s : State) : ∃ t, stepReader s = .next t := by
  cases hctl : s.ru.ctl with
  | cons c rest => exact ⟨_, stepReader_served hctl⟩
  | nil =>
    cases hfib : s.ru.fib with
    | some f => exact ⟨_, stepReader_looped hctl hfib⟩
    | none =>
      cases hcmds : s.ru.cmds with
      | nil => exact ⟨_, stepReader_idle hctl hfib hcmds⟩
      | cons w rest =>
        cases hdecode : decode .ru w with
        | ok i => exact stepReader_ran hctl hfib hcmds hdecode ▸ exec_next i _
        | error e => exact ⟨_, stepReader_raised hctl hfib hcmds hdecode⟩

theorem stepWriter_next (s : State) : ∃ t, stepWriter s = .next t := by
  cases hctl : s.wu.ctl with
  | cons c rest => exact ⟨_, stepWriter_served hctl⟩
  | nil =>
    cases hwaiting : s.wu.waiting with
    | some c => exact stepWriter_resumed hctl hwaiting ▸ exec_next c.instr _
    | none =>
      cases hcmds : s.wu.cmds with
      | nil => exact ⟨_, stepWriter_idle hctl hwaiting hcmds⟩
      | cons w rest =>
        cases hdecode : decode .wu w with
        | ok i => exact stepWriter_ran hctl hwaiting hcmds hdecode ▸ exec_next i _
        | error e => exact ⟨_, stepWriter_raised hctl hwaiting hcmds hdecode⟩

theorem step_next (s : State) : ∃ t, step s = .next t := by
  cases hturn : s.turn with
  | ru => exact step_of_turn_ru hturn ▸ stepReader_next _
  | wu => exact step_of_turn_wu hturn ▸ stepWriter_next _

/-- Settles O12: every arm of a command and every case of a move answers a next state. -/
theorem everyStepAnswersANextState : Obligations.EveryStepAnswersANextState :=
  ⟨exec_next, step_next⟩

/-! ## A move touches its own unit alone and does not read the other -/

theorem continueFib_frame (f : FibRegs) (s : State) :
    (s.continueFib f).wu = s.wu ∧ (s.continueFib f).turn = s.turn := by
  unfold State.continueFib
  simp only
  split <;> simp

theorem continueFib_replace (f : FibRegs) (s : State) (w : Writer) (p : Port) :
    State.continueFib f { s with wu := w, turn := p } = { s.continueFib f with wu := w, turn := p } := by
  simp only [State.continueFib]
  split <;> rfl

theorem stepReader_frame {s t : State} (h : stepReader s = .next t) : t.wu = s.wu ∧ t.turn = s.turn := by
  cases stepReader_cases h with
  | served c rest ctl eq => subst eq; simp
  | looped f ctl fib eq => subst eq; exact continueFib_frame f s
  | idle ctl fib cmds eq => subst eq; simp
  | ran w rest i ctl fib cmds port decoded eq =>
    obtain ⟨hwu, hturn, _⟩ := exec_reader_frame port eq
    exact ⟨hwu, hturn⟩
  | raised w rest e ctl fib cmds decoded eq => subst eq; simp

theorem stepWriter_frame {s t : State} (h : stepWriter s = .next t) : t.ru = s.ru ∧ t.turn = s.turn := by
  cases stepWriter_cases h with
  | served c rest ctl eq => subst eq; simp
  | resumed c ctl waiting eq =>
    obtain ⟨hru, hturn, _⟩ := exec_writer_frame c.instr_port eq
    exact ⟨hru, hturn⟩
  | idle ctl waiting cmds eq => subst eq; simp
  | ran w rest i ctl waiting cmds port decoded eq =>
    obtain ⟨hru, hturn, _⟩ := exec_writer_frame port eq
    exact ⟨hru, hturn⟩
  | raised w rest e ctl waiting cmds decoded eq => subst eq; simp

theorem stepReader_replace {s t : State} (h : stepReader s = .next t) (w : Writer) (p : Port) :
    stepReader { s with wu := w, turn := p } = .next { t with wu := w, turn := p } := by
  cases stepReader_cases h with
  | served c rest ctl eq => subst eq; exact stepReader_served ctl
  | looped f ctl fib eq =>
    subst eq
    rw [← continueFib_replace]
    exact stepReader_looped ctl fib
  | idle ctl fib cmds eq => subst eq; exact stepReader_idle ctl fib cmds
  | ran word rest i ctl fib cmds port decoded eq =>
    have hran := stepReader_ran (s := { s with wu := w, turn := p }) ctl fib cmds decoded
    exact hran.trans (exec_reader_replace port eq w p)
  | raised word rest e ctl fib cmds decoded eq => subst eq; exact stepReader_raised ctl fib cmds decoded

theorem stepWriter_replace {s t : State} (h : stepWriter s = .next t) (r : Reader) (p : Port) :
    stepWriter { s with ru := r, turn := p } = .next { t with ru := r, turn := p } := by
  cases stepWriter_cases h with
  | served c rest ctl eq => subst eq; exact stepWriter_served ctl
  | resumed c ctl waiting eq =>
    have hresumed := stepWriter_resumed (s := { s with ru := r, turn := p }) ctl waiting
    exact hresumed.trans (exec_writer_replace c.instr_port eq r p)
  | idle ctl waiting cmds eq => subst eq; exact stepWriter_idle ctl waiting cmds
  | ran word rest i ctl waiting cmds port decoded eq =>
    have hran := stepWriter_ran (s := { s with ru := r, turn := p }) ctl waiting cmds decoded
    exact hran.trans (exec_writer_replace port eq r p)
  | raised word rest e ctl waiting cmds decoded eq => subst eq; exact stepWriter_raised ctl waiting cmds decoded

/-- A step is the move of the unit whose turn it is, and the turn passes. -/
inductive StepMove (s t : State) : Prop
  | reader (turn : s.turn = .ru) (move : stepReader { s with turn := .wu } = .next t) (other : t.wu = s.wu)
      (passed : t.turn = .wu)
  | writer (turn : s.turn = .wu) (move : stepWriter { s with turn := .ru } = .next t) (other : t.ru = s.ru)
      (passed : t.turn = .ru)

theorem step_cases {s t : State} (h : step s = .next t) : StepMove s t := by
  cases hturn : s.turn with
  | ru =>
    rw [step_of_turn_ru hturn] at h
    obtain ⟨hwu, hpassed⟩ := stepReader_frame h
    exact .reader hturn h hwu hpassed
  | wu =>
    rw [step_of_turn_wu hturn] at h
    obtain ⟨hru, hpassed⟩ := stepWriter_frame h
    exact .writer hturn h hru hpassed

/-- Settles O50: a move is the same with another unit put beside it. -/
theorem unitsDoNotInfluenceEachOther : Obligations.UnitsDoNotInfluenceEachOther := by
  refine ⟨fun s s' t t' hturn hturn' heq h h' => ?_, fun s s' t t' hturn hturn' heq h h' => ?_⟩
  · rw [step_of_turn_ru hturn] at h
    rw [step_of_turn_ru hturn'] at h'
    obtain ⟨hwu, hpassed⟩ := stepReader_frame h
    have hreplaced := stepReader_replace h s'.wu .wu
    simp only [heq] at hreplaced
    cases h'.symm.trans hreplaced
    exact ⟨rfl, hwu, hpassed⟩
  · rw [step_of_turn_wu hturn] at h
    rw [step_of_turn_wu hturn'] at h'
    obtain ⟨hru, hpassed⟩ := stepWriter_frame h
    have hreplaced := stepWriter_replace h s'.ru .ru
    simp only [heq] at hreplaced
    cases h'.symm.trans hreplaced
    exact ⟨rfl, hru, hpassed⟩

/-! ## Runs of steps -/

theorem run_zero (s : State) : Host.Core.run core 0 s = .next s := rfl

theorem run_succ {s t : State} (h : step s = .next t) (k : Nat) :
    Host.Core.run core (k + 1) s = Host.Core.run core k t := by
  have hcore : core.step s = .next t := h
  simp only [Host.Core.run, hcore]

/-- What every step keeps, and holds before a run, holds after it. -/
theorem run_induction {P : State → Prop} (hstep : ∀ s t, P s → step s = .next t → P t) {s t : State} {k : Nat}
    (hs : P s) (hrun : Host.Core.run core k s = .next t) : P t := by
  induction k generalizing s with
  | zero => cases hrun; exact hs
  | succ k ih =>
    obtain ⟨u, hu⟩ := step_next s
    rw [run_succ hu] at hrun
    exact ih (hstep s u hs hu) hrun

theorem run_next (k : Nat) (s : State) : ∃ t, Host.Core.run core k s = .next t := by
  induction k generalizing s with
  | zero => exact ⟨s, rfl⟩
  | succ k ih =>
    obtain ⟨u, hu⟩ := step_next s
    rw [run_succ hu]
    exact ih u

theorem run_add {s u : State} {j : Nat} (h : Host.Core.run core j s = .next u) (m : Nat) :
    Host.Core.run core (j + m) s = Host.Core.run core m u := by
  induction j generalizing s with
  | zero =>
    cases h
    rw [Nat.zero_add]
  | succ j ih =>
    obtain ⟨v, hv⟩ := step_next s
    rw [run_succ hv] at h
    rw [Nat.add_right_comm, run_succ hv, ih h]

/-- A step of RU beside any writer. -/
theorem step_of_stepReader {s t : State} (h : stepReader s = .next t) (w : Writer) :
    step { s with wu := w, turn := .ru } = .next { t with wu := w, turn := .wu } :=
  (step_of_turn_ru rfl).trans (stepReader_replace h w .wu)

/-- A step of WU beside any reader. -/
theorem step_of_stepWriter {s t : State} (h : stepWriter s = .next t) (r : Reader) :
    step { s with ru := r, turn := .wu } = .next { t with ru := r, turn := .ru } :=
  (step_of_turn_wu rfl).trans (stepWriter_replace h r .ru)

/-- Settles O51: each unit's move gives the same unit whether it comes first or second. -/
theorem movesOfTheUnitsCommute : Obligations.MovesOfTheUnitsCommute := by
  intro s
  obtain ⟨a, ha⟩ := stepReader_next s
  obtain ⟨b, hb⟩ := stepWriter_next s
  refine ⟨{ ru := a.ru, wu := b.wu, turn := .ru }, { ru := a.ru, wu := b.wu, turn := .wu }, ?_, ?_, rfl, rfl⟩
  · rw [run_succ (step_of_stepReader ha s.wu), run_succ (step_of_stepWriter hb a.ru), run_zero]
  · rw [run_succ (step_of_stepWriter hb s.ru), run_succ (step_of_stepReader ha b.wu), run_zero]

end Sys2Proof.Machine

/-! # Proofs of the family other: what a step is in each situation

Acceptance of a command, IllegalCommand, the wait for a packet, reset, the status port, and errors (R36, R40, R96, R98,
R224, R226, R251). -/

namespace Sys2Proof.Machine

/-! ## Acceptance and its absence (R96, R224, R251) -/

/-- Settles O6, by the reader's move where a word decodes. -/
theorem stepRunsTheReadersCommand : Obligations.StepRunsTheReadersCommand := by
  intro s w rest i hturn hctl hfib hcmds hdecode
  rw [step_of_turn_ru hturn]
  exact stepReader_ran hctl hfib hcmds hdecode

/-- Settles O7, by the writer's move where a word decodes. -/
theorem stepRunsTheWritersCommand : Obligations.StepRunsTheWritersCommand := by
  intro s w rest i hturn hctl hwaiting hcmds hdecode
  rw [step_of_turn_wu hturn]
  exact stepWriter_ran hctl hwaiting hcmds hdecode

/-- Settles O9: a port rejects exactly the opcodes outside its table, and its unit raises IllegalCommand. -/
theorem illegalCommandOnlyResponds : Obligations.IllegalCommandOnlyResponds := by
  refine ⟨fun s w rest hturn hctl hfib hcmds unassigned => ?_, fun s w rest hturn hctl hwaiting hcmds unassigned => ?_⟩
  · rw [step_of_turn_ru hturn]
    exact stepReader_raised (s := { s with turn := .wu }) hctl hfib hcmds
      (decode_eq_error (mt (decode_ru_isOk_iff w).mp unassigned))
  · rw [step_of_turn_wu hturn]
    exact stepWriter_raised (s := { s with turn := .ru }) hctl hwaiting hcmds
      (decode_eq_error (mt (decode_wu_isOk_iff w).mp unassigned))

/-- Settles O57, by the idle case of each unit's move. -/
theorem anIdleUnitWaitsForACommand : Obligations.AnIdleUnitWaitsForACommand := by
  refine ⟨fun s hturn hctl hfib hcmds => ?_, fun s hturn hctl hwaiting hcmds => ?_⟩
  · rw [step_of_turn_ru hturn]
    exact stepReader_idle hctl hfib hcmds
  · rw [step_of_turn_wu hturn]
    exact stepWriter_idle hctl hwaiting hcmds

/-! ## The payload packet (R98) -/

/-- Settles O42, by recursion on the payload. -/
theorem presentedPacketIsTaken : Obligations.PresentedPacketIsTaken := by
  intro payload rest
  induction payload using packetOf.induct with
  | case1 => rfl
  | case2 b => rfl
  | case3 b bs hne ih =>
    rw [packetOf.eq_3 b bs hne, List.cons_append, takePacket, ih]
    rfl

/-- While no whole packet stands on `wstream` a payload command is held and nothing else changes. -/
theorem exec_payload_waits {s : State} (c : PayloadCmd) (hnone : takePacket s.wu.wstream = none) :
    exec c.instr s = .next { s with wu := { s.wu with waiting := some c } } := by
  cases c <;> exact congrArg _ (State.withPayload_none hnone)

/-- Settles O11: a held command is executed again in each turn, and waits again or takes its packet. -/
theorem writerWaitsForItsPacket : Obligations.WriterWaitsForItsPacket := by
  refine ⟨fun s c hnone => ⟨exec_payload_waits c hnone, fun hturn hctl hwaiting => ?_⟩,
    fun s c payload rest hturn hctl hwaiting packet => ?_⟩
  · have hresumed := stepWriter_resumed (s := { s with turn := .ru }) hctl hwaiting
    have hwaits := exec_payload_waits (s := { s with turn := .ru }) c hnone
    rw [step_of_turn_wu hturn, hresumed, hwaits, ← hwaiting]
  · have hstep : step s = exec c.instr { s with turn := .ru } := by
      rw [step_of_turn_wu hturn]
      exact stepWriter_resumed hctl hwaiting
    obtain ⟨t, ht, hstream, hidle, st, hresponses⟩ := exec_payload_consumes (s := { s with turn := .ru }) c packet
    obtain ⟨_, _, _, hcmds, _⟩ := exec_writer_frame c.instr_port ht
    exact ⟨hstep, t, st, hstep.trans ht, hidle, hstream, hcmds, hresponses⟩

/-! ## Reset (R40) -/

theorem length_take_maxSrcLen (bytes : List Byte) : (bytes.take Config.maxSrcLen).length < 2 ^ 64 := by
  rw [List.length_take, Config.maxSrcLen]
  omega

/-- Whatever the bytes and whatever the reader, a reset leaves a reader in order. -/
theorem Reader.resetOn_ok (bytes : List Byte) (r : Reader) : (r.resetOn bytes).Ok := by
  refine ⟨rfl, rfl, Memory.ofBytes_wf _, List.all_eq_true.mpr fun cell hcell => ?_⟩
  have hbound := (Memory.ofBytes_bound _ 0 cell hcell).2
  have hlen : (r.resetOn bytes).srcLen.toNat = (bytes.take Config.maxSrcLen).length := by
    simp only [Reader.resetOn, BitVec.toNat_ofNat]
    exact Nat.mod_eq_of_lt (length_take_maxSrcLen bytes)
  rw [hlen]
  exact decide_eq_true (by omega)

section
variable {bytes : List Byte} (hbytes : bytes.length < 2 ^ 64) (r : Reader)
include hbytes

theorem take_maxSrcLen : bytes.take Config.maxSrcLen = bytes :=
  List.take_of_length_le (by rw [Config.maxSrcLen]; omega)

theorem Reader.resetOn_srcLen : (r.resetOn bytes).srcLen.toNat = bytes.length := by
  simp only [Reader.resetOn, take_maxSrcLen hbytes, BitVec.toNat_ofNat]
  exact Nat.mod_eq_of_lt hbytes

theorem Reader.resetOn_read (k : Nat) : Memory.read (r.resetOn bytes).source k = bytes.getD k 0x00#8 := by
  have hread := Memory.read_ofBytes bytes 0 k
  rw [Nat.zero_add] at hread
  simpa only [Reader.resetOn, take_maxSrcLen hbytes] using hread

theorem Reader.resetOn_fetch (c : Word) : (r.resetOn bytes).fetch c = bytes.getD c.toNat 0x00#8 := by
  simp only [Reader.fetch, BitVec.lt_def, Reader.resetOn_srcLen hbytes, Reader.resetOn_read hbytes]
  split
  · rfl
  · rename_i hpast
    rw [List.getD_eq_default _ _ (Nat.not_lt.mp hpast)]

end

/-- Settles O13: the control action at the head of a unit's list is served in its turn. -/
theorem resetPutsAUnitInItsResetState : Obligations.ResetPutsAUnitInItsResetState := by
  refine ⟨fun s bytes rest hturn hctl hbytes => ?_, fun s rest hturn hctl => ?_⟩
  · refine ⟨_, (step_of_turn_ru hturn).trans (stepReader_served hctl), rfl, rfl, Reader.resetOn_srcLen hbytes _,
      Reader.resetOn_fetch hbytes _, Reader.resetOn_fetch hbytes { s.ru with ctl := rest } 0#64, rfl, rfl, rfl, rfl, rfl,
      rfl, Reader.resetOn_ok bytes _⟩
  · exact ⟨_, (step_of_turn_wu hturn).trans (stepWriter_served hctl), rfl, rfl, rfl, rfl, rfl, rfl, rfl, rfl, rfl⟩

/-! ## The status port (R36, R272) -/

section
variable (mask byte : Byte)

/-- A unit's state register: the byte low, the mask above it (R36). -/
theorem stateRegister_fields :
    ((mask ++ byte).setWidth 64).extractLsb' 0 8 = byte ∧ ((mask ++ byte).setWidth 64).extractLsb' 8 8 = mask := by
  constructor <;>
  · apply BitVec.eq_of_getLsbD_eq
    intro i hi
    simp only [BitVec.getLsbD_extractLsb', BitVec.getLsbD_setWidth, BitVec.getLsbD_append]
    grind

/-- Above the mask a state register is 0 (R36). -/
theorem stateRegister_lt : ((mask ++ byte).setWidth 64).toNat < 2 ^ 16 := by
  rw [BitVec.toNat_setWidth]
  exact (Nat.mod_le _ _).trans_lt (mask ++ byte).isLt

end

theorem Reader.readStatus_idle {r : Reader} (h : r.fib = none) (n : Nat) :
    r.readStatus n = { r with statusOut := r.statusOut ++ [r.statusRegister n] } := by
  simp only [Reader.readStatus, Reader.idle, h, Option.isNone_none, if_true]

theorem Reader.readStatus_busy {r : Reader} {f : FibRegs} (h : r.fib = some f) (n : Nat) :
    r.readStatus n
      = { r with statusOut := r.statusOut ++ [Config.statusWhileBusy .ru r.draws], draws := r.draws + 1 } := by
  simp only [Reader.readStatus, Reader.idle, h, Option.isNone_some, Bool.false_eq_true, if_false]

theorem Writer.readStatus_idle {w : Writer} (h : w.waiting = none) (n : Nat) :
    w.readStatus n = { w with statusOut := w.statusOut ++ [w.statusRegister n] } := by
  simp only [Writer.readStatus, Writer.idle, h, Option.isNone_none, if_true]

theorem Writer.readStatus_busy {w : Writer} {c : PayloadCmd} (h : w.waiting = some c) (n : Nat) :
    w.readStatus n
      = { w with statusOut := w.statusOut ++ [Config.statusWhileBusy .wu w.draws], draws := w.draws + 1 } := by
  simp only [Writer.readStatus, Writer.idle, h, Option.isNone_some, Bool.false_eq_true, if_false]

theorem Reader.statusRegister_of_ge (r : Reader) {n : Nat} (h : 3 ≤ n) : r.statusRegister n = 0#64 := by
  match n, h with
  | _ + 3, _ => rfl

theorem Writer.statusRegister_of_ge (w : Writer) {n : Nat} (h : 2 ≤ n) : w.statusRegister n = 0#64 := by
  match n, h with
  | _ + 2, _ => rfl

theorem Reader.statusRegister_state (r : Reader) {n : Nat} (h : n = 1) :
    (r.statusRegister n).extractLsb' 0 8 = r.currentByte ∧ (r.statusRegister n).extractLsb' 8 8 = r.bitMask ∧
      (r.statusRegister n).toNat < 2 ^ 16 := by
  subst h
  obtain ⟨hbyte, hmask⟩ := stateRegister_fields r.bitMask r.currentByte
  exact ⟨hbyte, hmask, stateRegister_lt _ _⟩

theorem Writer.statusRegister_state (w : Writer) {n : Nat} (h : n = 1) :
    (w.statusRegister n).extractLsb' 0 8 = w.pendingByte ∧ (w.statusRegister n).extractLsb' 8 8 = w.bitMask ∧
      (w.statusRegister n).toNat < 2 ^ 16 := by
  subst h
  obtain ⟨hbyte, hmask⟩ := stateRegister_fields w.bitMask w.pendingByte
  exact ⟨hbyte, hmask, stateRegister_lt _ _⟩

theorem step_readStatus_ru {s : State} {n : Nat} {rest : List ReaderControl} (hturn : s.turn = .ru)
    (hctl : s.ru.ctl = .readStatus n :: rest) :
    step s = .next { s with ru := Reader.readStatus n { s.ru with ctl := rest }, turn := .wu } :=
  (step_of_turn_ru hturn).trans (stepReader_served (s := { s with turn := .wu }) hctl)

theorem step_readStatus_wu {s : State} {n : Nat} {rest : List WriterControl} (hturn : s.turn = .wu)
    (hctl : s.wu.ctl = .readStatus n :: rest) :
    step s = .next { s with wu := Writer.readStatus n { s.wu with ctl := rest }, turn := .ru } :=
  (step_of_turn_wu hturn).trans (stepWriter_served (s := { s with turn := .ru }) hctl)

/-- Settles O14: a status read is served from the head of the control list; an idle unit answers its register, a
busy one the free value of its counter. -/
theorem statusReadsAnswerTheRegisters : Obligations.StatusReadsAnswerTheRegisters := by
  refine ⟨fun s n rest hturn hctl hfib => ⟨s.ru.statusRegister n, ?_, ?_⟩,
    fun s n rest hturn hctl hwaiting => ⟨s.wu.statusRegister n, ?_, ?_⟩,
    fun s n rest f hturn hctl hfib => ⟨Config.statusWhileBusy .ru s.ru.draws, ?_⟩,
    fun s n rest c hturn hctl hwaiting => ⟨Config.statusWhileBusy .wu s.wu.draws, ?_⟩⟩
  · rw [step_readStatus_ru hturn hctl, Reader.readStatus_idle (r := { s.ru with ctl := rest }) hfib]
    rfl
  · exact ⟨fun h => h ▸ rfl, fun h => h ▸ rfl, Reader.statusRegister_of_ge _, Reader.statusRegister_state _⟩
  · rw [step_readStatus_wu hturn hctl, Writer.readStatus_idle (w := { s.wu with ctl := rest }) hwaiting]
    rfl
  · exact ⟨fun h => h ▸ rfl, Writer.statusRegister_of_ge _, Writer.statusRegister_state _⟩
  · rw [step_readStatus_ru hturn hctl, Reader.readStatus_busy (r := { s.ru with ctl := rest }) hfib]
  · rw [step_readStatus_wu hturn hctl, Writer.readStatus_busy (w := { s.wu with ctl := rest }) hwaiting]

/-! ## Errors (R226) -/

theorem append_response_inj {l : List Response} {st st' : Status} {v v' : Word} :
    l ++ [⟨st, v⟩] = l ++ [⟨st', v'⟩] ↔ st = st' ∧ v = v' := by
  simp

/-- A payload command that takes its packet and does not answer OK is WRBUF. -/
theorem payload_error_is_wrbuf {s t : State} {c : PayloadCmd} {payload : List Byte} {rest : List Item} {st : Status}
    {v : Word} (packet : takePacket s.wu.wstream = some (payload, rest)) (h : exec c.instr s = .next t)
    (hresponse : t.wu.responses = s.wu.responses ++ [⟨st, v⟩]) (herror : st ≠ .ok) : ∃ o l, c = .wrbuf o l := by
  cases c with
  | wrbuf o l => exact ⟨o, l, rfl⟩
  | wrbits =>
    have wrote := Writer.writeBits_wrote (payload.map fun b => b.getLsbD 0) (s.wu.packetTaken rest)
    cases h.symm.trans (exec_wrbits_packet packet)
    rw [wrote.completeWriter_responses rfl, append_response_inj] at hresponse
    exact absurd hresponse.1.symm herror
  | wrstr =>
    have wrote := Writer.writeString_wrote payload (s.wu.packetTaken rest)
    cases h.symm.trans (exec_wrstr_packet packet)
    rw [wrote.completeWriter_responses rfl, append_response_inj] at hresponse
    exact absurd hresponse.1.symm herror

/-- Settles O54: of the cases of a command, the ones that raise alone leave a response other than OK. -/
theorem errorsLeaveOnlyTheirResponse : Obligations.ErrorsLeaveOnlyTheirResponse := by
  intro i s t st v h herror
  refine ⟨fun hport hresponse => ?_, fun hport hresponse => ?_⟩
  · cases exec_reader_cases hport h with
    | completed q items value moved eq =>
      rw [eq, moved.completeReader_responses, append_response_inj] at hresponse
      exact absurd hresponse.1.symm herror
    | raised eq =>
      rw [eq, State.raise_ru_ru, Reader.respond_responses, append_response_inj] at hresponse
      obtain ⟨rfl, rfl⟩ := hresponse
      exact ⟨rfl, eq⟩
    | looping eq => simp [eq] at hresponse
  · cases exec_writer_cases hport h with
    | completed q noPacket wrote eq =>
      rw [eq, wrote.completeWriter_responses rfl, append_response_inj] at hresponse
      exact absurd hresponse.1.symm herror
    | raised noPacket eq =>
      rw [eq, State.raise_wu_wu, Writer.respond_responses, append_response_inj] at hresponse
      obtain ⟨rfl, rfl⟩ := hresponse
      exact ⟨rfl, fun _ => eq, fun o l hi => absurd hi (noPacket (.wrbuf o l))⟩
    | waiting c instr none eq => simp [eq] at hresponse
    | completedWith c instr payload rest q packet wrote eq =>
      rw [eq, wrote.completeWriter_responses rfl, append_response_inj] at hresponse
      exact absurd hresponse.1.symm herror
    | raisedWith c instr payload rest packet eq =>
      obtain ⟨o, l, rfl⟩ := payload_error_is_wrbuf packet (instr ▸ h) hresponse herror
      rw [eq, Writer.respond_responses, append_response_inj] at hresponse
      obtain ⟨rfl, rfl⟩ := hresponse
      exact ⟨rfl, fun hne => absurd instr (hne o l), fun _ _ _ => ⟨payload, rest, packet, eq⟩⟩

end Sys2Proof.Machine

/-! # Proofs of the family other: the Fibonacci decoder and reads past the end

RDFIB with a terminator ahead, its minimum and its round trip (R151, R152, R154, R157), and reads past the end (R54). -/

namespace Sys2Proof.Machine

/-! ## RDFIB by the first pair of 1 bits ahead (R152, R155) -/

/-- Two adjacent 1 bits end at an index ahead exactly where the loop of R150, at its start, meets its terminator. -/
theorem Reader.pairAt_iff (r : Reader) (j : Nat) :
    r.pairAt r.bitpos j = true ↔ r.streamBit (r.bitpos + j) = true ∧ r.bitBefore FibRegs.init j = true := by
  cases j with
  | zero => simp [Reader.pairAt, Reader.bitBefore, FibRegs.init]
  | succ j => simp [Reader.pairAt, Reader.bitBefore, and_comm]

section
variable {s : State} (hok : s.ru.Ok)
include hok

theorem exec_rdfib_terminated {t : Nat} (hpair : s.ru.pairAt s.ru.bitpos t = true)
    (hfirst : ∀ j < t, s.ru.pairAt s.ru.bitpos j = false) :
    exec .rdfib s = .next (s.completeReader (s.ru.advance (t + 1)) []
      (BitVec.ofNat 64 (fibSum 0 (s.ru.streamBits s.ru.bitpos t)))) := by
  have hpair' := (s.ru.pairAt_iff t).mp hpair
  have hfirst' : ∀ j < t, ¬ (s.ru.streamBit (s.ru.bitpos + j) = true ∧ s.ru.bitBefore FibRegs.init j = true) :=
    fun j hj hterm => Bool.false_ne_true ((hfirst j hj).symm.trans ((s.ru.pairAt_iff j).mpr hterm))
  rw [exec_rdfib_completes (Reader.fibDecode_terminated hok (Reader.bit_within_fuel hpair'.1) hfirst' hpair'),
    FibRegs.init_acc]

theorem exec_rdfib_unterminated (hno : ∀ t, s.ru.pairAt s.ru.bitpos t = false) :
    exec .rdfib s = .next { s with ru := { s.ru with fib := some FibRegs.init } } :=
  exec_rdfib_loops (Reader.fibDecode_unterminated hok fun j _ hterm =>
    Bool.false_ne_true ((hno j).symm.trans ((s.ru.pairAt_iff j).mpr hterm)))

/-- Where RDFIB responds, a first pair of 1 bits lies ahead. -/
theorem exists_first_pair_of_response {t : State} {st : Status} {v : Word} (h : exec .rdfib s = .next t)
    (hresponse : t.ru.responses = s.ru.responses ++ [⟨st, v⟩]) :
    ∃ n, s.ru.pairAt s.ru.bitpos n = true ∧ ∀ j < n, s.ru.pairAt s.ru.bitpos j = false := by
  by_cases hex : ∃ n, s.ru.pairAt s.ru.bitpos n = true
  · exact ⟨Nat.find hex, Nat.find_spec hex, fun j hj => Bool.eq_false_iff.mpr (Nat.find_min hex hj)⟩
  · have hno : ∀ n, s.ru.pairAt s.ru.bitpos n = false := fun n => Bool.eq_false_iff.mpr fun hn => hex ⟨n, hn⟩
    cases h.symm.trans (exec_rdfib_unterminated hok hno)
    simp at hresponse

end

/-- Settles O24, by the loop's law up to its first terminator. -/
theorem rdfibAnswersTheCodewordAhead : Obligations.RdfibAnswersTheCodewordAhead := by
  refine ⟨fun w hop => by simp [decode, decodeReader, hop], fun s t hok hpair hfirst => ?_⟩
  rw [exec_rdfib_terminated hok hpair hfirst, State.completeReader, Reader.push_nil]

/-- Below the terminator stands a 1 bit, whose weight is at least 1 (R157). -/
theorem Reader.one_le_fibSum_of_pairAt {r : Reader} {t : Nat} (h : r.pairAt r.bitpos t = true) :
    1 ≤ fibSum 0 (r.streamBits r.bitpos t) := by
  cases t with
  | zero => simp [Reader.pairAt] at h
  | succ m =>
    have hbit : r.streamBit (r.bitpos + m) = true := ((r.pairAt_iff (m + 1)).mp h).2
    have hweight : 0 < Nat.fib (m + 2) := Nat.fib_pos.mpr (by omega)
    rw [Reader.streamBits_add, Reader.streamBits_succ, hbit, Reader.streamBits_zero, fibSum_concat,
      Reader.streamBits_length, if_pos rfl]
    omega

/-- Settles O26: the bit below the terminator is 1, and its weight is in the sum. -/
theorem aCodewordCarriesAtLeastOne : Obligations.ACodewordCarriesAtLeastOne := by
  intro s t st v hok h hresponse
  obtain ⟨n, hpair, hfirst⟩ := exists_first_pair_of_response hok h hresponse
  have hsum := Reader.one_le_fibSum_of_pairAt hpair
  cases h.symm.trans (exec_rdfib_terminated hok hpair hfirst)
  rw [State.completeReader_ru, Reader.push_nil, Reader.respond_responses, Reader.advance_responses,
    append_response_inj] at hresponse
  obtain ⟨rfl, rfl⟩ := hresponse
  refine ⟨n, rfl, by rw [State.completeReader_ru, Reader.push_nil], rfl, hsum, fun hfits hzero => ?_⟩
  exact Nat.ne_of_gt hsum ((Nat.mod_eq_of_lt hfits).symm.trans (congrArg BitVec.toNat hzero))

/-! ## Round trip (R154) -/

theorem Reader.streamBits_getD (r : Reader) (k : Nat) {n j : Nat} (h : j < n) :
    (r.streamBits k n).getD j false = r.streamBit (k + j) := by
  rw [List.getD_eq_getElem _ _ (by rwa [Reader.streamBits_length])]
  simp [Reader.streamBits]

/-- RDFIB in front of data bits that end in a 1 and hold no two adjacent 1 bits, and their terminator, answers the sum
of their weights and consumes exactly them. -/
theorem exec_rdfib_codeword {s : State} (hok : s.ru.Ok) {data : List Bool} (hlast : data.getLast? = some true)
    (hno : NoPair data) (hahead : s.ru.streamBits s.ru.bitpos (data.length + 1) = data ++ [true]) :
    exec .rdfib s = .next (s.completeReader (s.ru.advance (data.length + 1)) [] (BitVec.ofNat 64 (fibSum 0 data))) := by
  have hbit : ∀ j < data.length + 1, s.ru.streamBit (s.ru.bitpos + j) = (data ++ [true]).getD j false :=
    fun j hj => by rw [← hahead, Reader.streamBits_getD _ _ hj]
  have hdata : s.ru.streamBits s.ru.bitpos data.length = data := by
    rw [Reader.streamBits_add] at hahead
    exact List.append_inj_left hahead (Reader.streamBits_length _ _ _)
  have hpair : s.ru.pairAt s.ru.bitpos data.length = true := by
    obtain ⟨init, rfl⟩ := List.getLast?_eq_some_iff.mp hlast
    rw [Reader.pairAt_iff, hbit _ (Nat.lt_succ_self _), getD_concat, if_pos rfl, List.length_append,
      List.length_singleton, Reader.bitBefore, hbit _ (by simp), getD_concat, if_neg (by simp), getD_concat, if_pos rfl]
    exact ⟨rfl, rfl⟩
  have hfirst : ∀ j < data.length, s.ru.pairAt s.ru.bitpos j = false := by
    intro j hj
    refine Bool.eq_false_iff.mpr fun hterm => ?_
    rw [Reader.pairAt_iff, hbit j (by omega), getD_concat, if_neg (by omega)] at hterm
    cases j with
    | zero => exact Bool.false_ne_true hterm.2
    | succ i =>
      rw [Reader.bitBefore, hbit i (by omega), getD_concat, if_neg (by omega)] at hterm
      exact hno i hterm.symm
  rw [exec_rdfib_terminated hok hpair hfirst, hdata]

/-- Settles O55: the codeword is Zeckendorf's, whose only pair of 1 bits is the one its terminator ends. -/
theorem fibonacciRoundTrip : Obligations.FibonacciRoundTrip := by
  intro s value hok hne hahead
  have hpos : 1 ≤ value.toNat := Nat.one_le_iff_ne_zero.mpr fun h => hne (BitVec.eq_of_toNat_eq h)
  obtain ⟨data, hcode, _, _, _, hsum, hlast, hno⟩ := fibCodeIsTheZeckendorfCodeword value.toNat hpos value.isLt
  rw [hcode, List.length_append, List.length_singleton] at hahead ⊢
  rw [exec_rdfib_codeword hok hlast hno hahead, State.completeReader, Reader.push_nil, hsum, BitVec.ofNat_toNat,
    BitVec.setWidth_eq]

/-! ## Reads past the end (R54) -/

theorem bitsValue_append_zeros (bits : List Bool) (m : Nat) :
    bitsValue (bits ++ List.replicate m false) = bitsValue bits * 2 ^ m := by
  induction m with
  | zero => simp
  | succ m ih =>
    rw [List.replicate_succ', ← List.append_assoc, bitsValue_concat, ih, pow_succ, Bool.toNat_false]
    ring

theorem bitsValue_zeros (m : Nat) : bitsValue (List.replicate m false) = 0 := by
  simpa [bitsValue] using bitsValue_append_zeros [] m

theorem Reader.streamBytes_past {r : Reader} {k : Nat} (h : 8 * r.srcLen.toNat ≤ k) (n : Nat) :
    (List.range n).map (fun j => r.streamByte (k + 8 * j)) = List.replicate n 0x00#8 :=
  List.eq_replicate_iff.mpr ⟨by simp, by simp [Reader.streamByte_past (h.trans (Nat.le_add_right _ _))]⟩

section
variable {s : State} (hok : s.ru.Ok) (hpast : 8 * s.ru.srcLen.toNat ≤ s.ru.bitpos)
include hok hpast

theorem exec_rdbit_past : exec .rdbit s = .next { s with ru := (s.ru.advance 1).respond .ok 0#64 } := by
  rw [rdbitAnswersTheNextStreamBit.2 s hok, Reader.streamBit_past hpast]
  rfl

theorem exec_rdbyte_past : exec .rdbyte s = .next { s with ru := (s.ru.advance 8).respond .ok 0#64 } := by
  rw [rdbyteAnswersTheNextEightBits.2.1 s hok, Reader.streamByte_past hpast]
  rfl

theorem exec_rdb2_past {n : Int} (hlow : 1 ≤ n) (hhigh : n ≤ 64) :
    exec (.rdb2 n) s = .next { s with ru := (s.ru.advance n.toNat).respond .ok 0#64 } := by
  rw [(rdb2AnswersTheNextBitsAsANumber.2 s n hok).2, if_neg (by omega), Reader.streamBits_past hpast, bitsValue_zeros]

theorem exec_rdbits_past (n : Nat) : exec (.rdbits n) s = .next
    { s with ru := ((s.ru.advance n).push (List.replicate n 0x00#8)).respond .ok (BitVec.ofNat 64 n) } := by
  have hzeros : (List.range n).map (fun j => if s.ru.streamBit (s.ru.bitpos + j) then 0x01#8 else 0x00#8)
      = List.replicate n 0x00#8 :=
    List.eq_replicate_iff.mpr ⟨by simp, by simp [Reader.streamBit_past (hpast.trans (Nat.le_add_right _ _))]⟩
  rw [rdbitsPushesTheNextStreamBits.2 s n hok, hzeros]

theorem exec_rdbytes_past (n : Nat) : exec (.rdbytes n) s = .next
    { s with ru := ((s.ru.advance (8 * n)).push (List.replicate n 0x00#8)).respond .ok (BitVec.ofNat 64 n) } := by
  rw [rdbytesPushesTheNextBytes.2 s n hok, Reader.streamBytes_past hpast]

theorem exec_rdbuf_past (n : Nat) : exec (.rdbuf n 0 n) s = .next
    { s with ru := ((s.ru.advance (8 * n)).push (List.replicate n 0x00#8)).respond .ok (BitVec.ofNat 64 n) } := by
  rw [rdbufPushesTheNextBytes.2 s n 0 n hok, if_neg (by omega), Int.toNat_natCast, Reader.streamBytes_past hpast,
    BitVec.ofInt_natCast]

theorem exec_rdstr_past : exec .rdstr s = .next { s with ru := (s.ru.advance 8).respond .ok 0#64 } := by
  have hread : s.ru.readString s.ru.stringFuel = ([], s.ru.advance 8) :=
    Reader.readString_eq hok (k := 0) (by simp [Reader.stringFuel]) (by simp) (Reader.streamByte_past hpast)
  rw [exec_rdstr, hread, State.completeReader, Reader.push_nil]
  rfl

theorem exec_rdfib_past : exec .rdfib s = .next { s with ru := { s.ru with fib := some FibRegs.init } } := by
  refine exec_rdfib_unterminated hok fun t => Bool.eq_false_iff.mpr fun hpair => ?_
  have hbit := ((s.ru.pairAt_iff t).mp hpair).1
  rw [Reader.streamBit_past (by omega)] at hbit
  exact Bool.false_ne_true hbit

end

/-- The bits of a field that lie past the end are its low-order ones, all 0. -/
theorem Reader.straddling_field_mod {r : Reader} {n m : Nat} (hm : m ≤ n)
    (hend : 8 * r.srcLen.toNat + m = r.bitpos + n) : bitsValue (r.streamBits r.bitpos n) % 2 ^ m = 0 := by
  obtain ⟨k, rfl⟩ := Nat.exists_eq_add_of_le' hm
  rw [Reader.streamBits_add, Reader.streamBits_past (show 8 * r.srcLen.toNat ≤ r.bitpos + k by omega),
    bitsValue_append_zeros, Nat.mul_mod_left]

/-- Settles O27: every stream bit past the end is 0, command by command. -/
theorem readsPastTheEndGiveZeros : Obligations.ReadsPastTheEndGiveZeros := by
  refine fun s hok => ⟨fun hpast => ⟨exec_rdbit_past hok hpast, exec_rdbyte_past hok hpast,
    fun n => exec_rdb2_past hok hpast, exec_rdbits_past hok hpast, exec_rdbytes_past hok hpast,
    exec_rdbuf_past hok hpast, exec_rdstr_past hok hpast, exec_rdfib_past hok hpast⟩, fun n m hm _ hend => ?_⟩
  exact Reader.straddling_field_mod hm hend

end Sys2Proof.Machine

/-! # Proofs of the family other: a busy reader

One iteration of the decoding loop (R150), and the loop that meets no terminator (R155). -/

namespace Sys2Proof.Machine

/-! ## One iteration (R150) -/

/-- One iteration of the loop in a reader in order, by the next stream bit. -/
theorem continueFib_eq {s : State} (hok : s.ru.Ok) (f : FibRegs) :
    s.continueFib f =
      if f.terminatedBy (s.ru.streamBit s.ru.bitpos) then
        { s with ru := Reader.respond .ok f.acc { s.ru.advance 1 with fib := none } }
      else { s with ru := { s.ru.advance 1 with fib := some (f.advance (s.ru.streamBit s.ru.bitpos)) } } := by
  simp only [State.continueFib, Reader.rdbit_eq hok, State.completeReader, Reader.push_nil]

/-- Settles O10: a busy reader's move is one iteration of its loop. -/
theorem busyReaderRunsOneIteration : Obligations.BusyReaderRunsOneIteration := by
  intro s f hturn hok hctl hfib
  have hmove := stepReader_looped (s := { s with turn := .wu }) hctl hfib
  rw [step_of_turn_ru hturn, hmove, continueFib_eq (s := { s with turn := .wu }) hok]
  by_cases hterm : f.terminatedBy (s.ru.streamBit s.ru.bitpos) = true
  · have hcond : (s.ru.streamBit s.ru.bitpos && f.last) = true := hterm
    simp only [if_pos hterm, if_pos hcond]
    rfl
  · have hcond : ¬ (s.ru.streamBit s.ru.bitpos && f.last) = true := hterm
    simp only [if_neg hterm, if_neg hcond]
    rfl

/-! ## The loop without a terminator (R155) -/

/-- RU is in the loop of R150 and no terminator lies ahead. -/
def Reader.Looping (r : Reader) : Prop :=
  r.Ok ∧ ∃ f, r.fib = some f ∧ ∀ j, ¬ (r.streamBit (r.bitpos + j) = true ∧ r.bitBefore f j = true)

theorem Reader.Looping.isSome {r : Reader} (h : r.Looping) : r.fib.isSome = true := by
  obtain ⟨_, f, hfib, _⟩ := h
  simp [hfib]

/-- RDFIB with no two adjacent 1 bits ahead enters such a loop. -/
theorem Reader.looping_of_no_pair {r : Reader} (hok : r.Ok) (hno : ∀ t, r.pairAt r.bitpos t = false) :
    Reader.Looping { r with fib := some FibRegs.init } :=
  ⟨hok, FibRegs.init, rfl, fun j hterm => Bool.false_ne_true ((hno j).symm.trans ((r.pairAt_iff j).mpr hterm))⟩

/-- In such a loop RU's move is one micro-step, and it stays in the loop. -/
theorem stepReader_looping {s : State} (hctl : s.ru.ctl = []) (h : s.ru.Looping) :
    ∃ g, stepReader s = .next { s with ru := { s.ru.advance 1 with fib := some g } } ∧
      Reader.Looping { s.ru.advance 1 with fib := some g } := by
  obtain ⟨hok, f, hfib, hno⟩ := h
  have hterm : ¬ f.terminatedBy (s.ru.streamBit s.ru.bitpos) = true := fun hterm =>
    hno 0 (by simpa [FibRegs.terminatedBy, Reader.bitBefore] using hterm)
  refine ⟨f.advance (s.ru.streamBit s.ru.bitpos), ?_, Reader.advance_ok hok 1, _, rfl, fun j hj => hno (j + 1) ?_⟩
  · rw [stepReader_looped hctl hfib, continueFib_eq hok, if_neg hterm]
  · rw [← Reader.streamBit_after_one, ← Reader.bitBefore_advance]
    exact hj

/-- A status read leaves RU in the loop. -/
theorem Reader.looping_serve_readStatus {r : Reader} (h : r.Looping) (n : Nat) (rest : List ReaderControl) :
    ∃ answers draws, Reader.serve (.readStatus n) { r with ctl := rest }
      = { r with ctl := rest, statusOut := answers, draws := draws } := by
  obtain ⟨_, f, hfib, _⟩ := h
  exact ⟨_, _, Reader.readStatus_busy (r := { r with ctl := rest }) hfib n⟩

/-- RU is in a loop without a terminator, its host asserts no reset, and what it has delivered and not yet taken is as
it was in `r`. -/
def Reader.Hanging (r q : Reader) : Prop :=
  q.Looping ∧ (∀ c ∈ q.ctl, ∃ n, c = .readStatus n) ∧ q.responses = r.responses ∧ q.rstream = r.rstream ∧
    q.cmds = r.cmds

theorem stepReader_hanging {r : Reader} {s t : State} (h : r.Hanging s.ru) (ht : stepReader s = .next t) :
    r.Hanging t.ru := by
  obtain ⟨hloop, hreads, hresponses, hitems, hcmds⟩ := h
  cases hctl : s.ru.ctl with
  | nil =>
    obtain ⟨g, hmove, hloop'⟩ := stepReader_looping hctl hloop
    cases ht.symm.trans hmove
    exact ⟨hloop', hreads, hresponses, hitems, hcmds⟩
  | cons c rest =>
    rw [hctl] at hreads
    obtain ⟨⟨n, rfl⟩, hrest⟩ := List.forall_mem_cons.mp hreads
    obtain ⟨answers, draws, hserve⟩ := Reader.looping_serve_readStatus hloop n rest
    cases ht.symm.trans (stepReader_served hctl)
    rw [hserve]
    exact ⟨hloop, hrest, hresponses, hitems, hcmds⟩

theorem step_hanging {r : Reader} {s t : State} (h : r.Hanging s.ru) (ht : step s = .next t) : r.Hanging t.ru := by
  cases step_cases ht with
  | reader turn move other passed => exact stepReader_hanging (s := { s with turn := .wu }) h move
  | writer turn move other passed => rwa [other]

/-- Two steps are one micro-step of RU in such a loop, whichever unit moves first. -/
theorem run_two_looping {s : State} (hctl : s.ru.ctl = []) (h : s.ru.Looping) (k : Nat) :
    ∃ t g, Host.Core.run core (k + 2) s = Host.Core.run core k t ∧ t.ru = { s.ru.advance 1 with fib := some g } ∧
      t.ru.Looping := by
  obtain ⟨g, hmove, hloop⟩ := stepReader_looping hctl h
  obtain ⟨w, hw⟩ := stepWriter_next s
  cases hturn : s.turn with
  | ru =>
    have hfirst := step_of_stepReader hmove s.wu
    have hsecond := step_of_stepWriter hw { s.ru.advance 1 with fib := some g }
    rw [← hturn] at hfirst
    exact ⟨_, g, (run_succ hfirst (k + 1)).trans (run_succ hsecond k), rfl, hloop⟩
  | wu =>
    have hfirst := step_of_stepWriter hw s.ru
    have hsecond := step_of_stepReader hmove w.wu
    rw [← hturn] at hfirst
    exact ⟨_, g, (run_succ hfirst (k + 1)).trans (run_succ hsecond k), rfl, hloop⟩

theorem run_looping {s : State} (hctl : s.ru.ctl = []) (h : s.ru.Looping) (k : Nat) :
    ∃ t, Host.Core.run core (2 * k) s = .next t ∧ t.ru = { s.ru.advance k with fib := t.ru.fib } := by
  induction k generalizing s with
  | zero => exact ⟨s, rfl, by rw [Reader.advance_zero h.1]⟩
  | succ k ih =>
    obtain ⟨u, g, hrun, hu, hloop⟩ := run_two_looping hctl h (2 * k)
    obtain ⟨t, ht, hru⟩ := ih (s := u) (by rw [hu]; exact hctl) hloop
    refine ⟨t, hrun.trans ht, ?_⟩
    rw [hru, hu, Nat.add_comm k 1, ← Reader.advance_add]
    rfl

/-- Settles O25: entering the loop with no terminator ahead is an invariant of every step without a reset of RU. -/
theorem rdfibWithoutATerminatorNeverResponds : Obligations.RdfibWithoutATerminatorNeverResponds := by
  intro s hok hno hreads
  have hexec := exec_rdfib_unterminated hok hno
  have hloop := Reader.looping_of_no_pair hok hno
  refine ⟨_, hexec, rfl, rfl, rfl, fun k => ?_, fun hctl => ?_⟩
  · obtain ⟨u, hu⟩ := run_next k { s with ru := { s.ru with fib := some FibRegs.init } }
    have hhanging : s.ru.Hanging { s.ru with fib := some FibRegs.init } := ⟨hloop, hreads, rfl, rfl, rfl⟩
    obtain ⟨hloop', _, hresponses, hitems, hcmds⟩ :=
      run_induction (P := fun t => s.ru.Hanging t.ru) (fun _ _ => step_hanging) hhanging hu
    exact ⟨u, hu, hloop'.isSome, hresponses, hitems, hcmds⟩
  · exact run_looping (s := { s with ru := { s.ru with fib := some FibRegs.init } }) hctl hloop

end Sys2Proof.Machine

/-! # Proofs of the family other: what every step keeps

The invariants of both units, the source and the sink, the bits counted in `position`, and the end of a writer's run
(R21 to R30, R182, R254). -/

namespace Sys2Proof.Machine

/-! ## A reader command advances the reader -/

/-- `q` stands in the same stream as `r`, `n` bits further. -/
def Reader.Advanced (n : Nat) (r q : Reader) : Prop :=
  q.source = r.source ∧ q.srcLen = r.srcLen ∧ q.cursor = (r.advance n).cursor ∧
    q.currentByte = (r.advance n).currentByte ∧ q.bitMask = (r.advance n).bitMask

theorem Reader.advanced_advance (n : Nat) (r : Reader) : r.Advanced n (r.advance n) := ⟨rfl, rfl, rfl, rfl, rfl⟩

theorem Reader.advanced_zero {r : Reader} (hok : r.Ok) : r.Advanced 0 r := by
  simpa only [Reader.advance_zero hok] using r.advanced_advance 0

theorem Reader.Advanced.ok {n : Nat} {r q : Reader} (h : r.Advanced n q) (hok : r.Ok) : q.Ok := by
  obtain ⟨hsource, hlen, hcursor, hbyte, hmask⟩ := h
  obtain ⟨hmask', hbyte', hwf, hbound⟩ := Reader.advance_ok hok n
  refine ⟨hmask ▸ hmask', ?_, hsource ▸ hwf, ?_⟩
  · rw [hbyte, hbyte', hcursor]
    exact (Reader.fetch_congr hsource hlen _).symm
  · rw [hsource, hlen]
    exact hbound

theorem Reader.Advanced.cursor_le {n : Nat} {r q : Reader} (h : r.Advanced n q) : r.cursor.toNat ≤ q.cursor.toNat := by
  obtain ⟨_, _, hcursor, _⟩ := h
  have := r.cursor.isLt
  rw [hcursor, Reader.advance_cursor_toNat]
  omega

theorem Reader.fibDecode_advances {fuel : Nat} {f : FibRegs} {r : Reader} {x : Word × Reader} (hok : r.Ok)
    (h : r.fibDecode fuel f = some x) : ∃ n, x.2 = r.advance n := by
  induction fuel generalizing f r with
  | zero => simp [Reader.fibDecode] at h
  | succ fuel ih =>
    simp only [Reader.fibDecode, Reader.rdbit_eq hok] at h
    split at h
    · cases h
      exact ⟨1, rfl⟩
    · obtain ⟨n, hn⟩ := ih (Reader.advance_ok hok 1) h
      exact ⟨1 + n, hn.trans (Reader.advance_add r 1 n)⟩

theorem completeReader_advanced {s : State} {q : Reader} {n : Nat} (hq : q = s.ru.advance n) (items : List Byte)
    (v : Word) : s.ru.Advanced n (s.completeReader q items v).ru := by
  subst hq
  exact s.ru.advanced_advance n

theorem exec_reader_advanced {i : Instr} {s t : State} (hport : i.port = .ru) (hok : s.ru.Ok)
    (h : exec i s = .next t) : ∃ n, s.ru.Advanced n t.ru := by
  cases i <;> simp only [Instr.port, reduceCtorEq] at hport
  case rdbit =>
    cases (exec_rdbit s).symm.trans h
    exact ⟨1, completeReader_advanced (congrArg Prod.snd (Reader.rdbit_eq hok)) _ _⟩
  case rdbits count =>
    cases (exec_rdbits count s).symm.trans h
    exact ⟨count, completeReader_advanced (congrArg Prod.snd (Reader.readBits_eq hok count)) _ _⟩
  case rdbyte =>
    cases (exec_rdbyte s).symm.trans h
    exact ⟨8, completeReader_advanced (congrArg Prod.snd (Reader.readByte_eq hok)) _ _⟩
  case rdbytes count =>
    cases (exec_rdbytes count s).symm.trans h
    exact ⟨8 * count, completeReader_advanced (congrArg Prod.snd (Reader.readBytes_eq hok count)) _ _⟩
  case rdbuf b o l =>
    by_cases bad : o < 0 ∨ o > b ∨ l < 0 ∨ o + l > b
    · cases (exec_rdbuf_raises s bad).symm.trans h
      exact ⟨0, Reader.advanced_zero hok⟩
    · cases (exec_rdbuf_completes s bad).symm.trans h
      exact ⟨8 * l.toNat, completeReader_advanced (congrArg Prod.snd (Reader.readBytes_eq hok l.toNat)) _ _⟩
  case rdb2 n =>
    by_cases bad : n < 1 ∨ n > 64
    · cases (exec_rdb2_raises s bad).symm.trans h
      exact ⟨0, Reader.advanced_zero hok⟩
    · cases (exec_rdb2_completes s bad).symm.trans h
      exact ⟨n.toNat, completeReader_advanced (congrArg Prod.snd (Reader.readBase2_eq hok n.toNat)) _ _⟩
  case rdfib =>
    cases hx : s.ru.fibDecode s.ru.fibFuel FibRegs.init with
    | none =>
      cases (exec_rdfib_loops hx).symm.trans h
      exact ⟨0, Reader.advanced_zero hok⟩
    | some x =>
      cases (exec_rdfib_completes hx).symm.trans h
      obtain ⟨n, hn⟩ := Reader.fibDecode_advances hok hx
      exact ⟨n, completeReader_advanced hn _ _⟩
  case rdstr =>
    obtain ⟨k, hfuel, hnonzero, hzero⟩ := s.ru.exists_first_zero
    cases (exec_rdstr s).symm.trans h
    exact ⟨8 * (k + 1), completeReader_advanced
      (congrArg Prod.snd (Reader.readString_eq hok hfuel hnonzero hzero)) _ _⟩

theorem continueFib_advanced {s : State} (hok : s.ru.Ok) (f : FibRegs) : s.ru.Advanced 1 (s.continueFib f).ru := by
  rw [continueFib_eq hok]
  split <;> exact s.ru.advanced_advance 1

theorem Reader.readStatus_frame (n : Nat) (r : Reader) :
    ∃ answers draws, r.readStatus n = { r with statusOut := answers, draws := draws } := by
  obtain hfib | ⟨f, hfib⟩ := Option.eq_none_or_eq_some r.fib
  · exact ⟨_, _, Reader.readStatus_idle hfib n⟩
  · exact ⟨_, _, Reader.readStatus_busy hfib n⟩

/-- But for a reset, RU's move leaves it in the same stream, some bits further (R21, R22). -/
theorem stepReader_advanced {s t : State} (hok : s.ru.Ok) (hreset : ∀ bytes rest, s.ru.ctl ≠ .reset bytes :: rest)
    (h : stepReader s = .next t) : ∃ n, s.ru.Advanced n t.ru := by
  cases stepReader_cases h with
  | served c rest ctl eq =>
    cases c with
    | reset bytes => exact absurd ctl (hreset bytes rest)
    | readStatus n =>
      obtain ⟨answers, draws, hread⟩ := Reader.readStatus_frame n { s.ru with ctl := rest }
      rw [eq, Reader.serve, hread]
      exact ⟨0, Reader.advanced_zero hok⟩
  | looped f ctl fib eq => exact ⟨1, eq ▸ continueFib_advanced hok f⟩
  | idle ctl fib cmds eq => subst eq; exact ⟨0, Reader.advanced_zero hok⟩
  | ran w rest i ctl fib cmds port decoded eq => exact exec_reader_advanced (s := s.acceptReader rest) port hok eq
  | raised w rest e ctl fib cmds decoded eq =>
    rw [eq]
    exact ⟨0, Reader.advanced_zero hok⟩

theorem stepReader_ok {s t : State} (hok : s.ru.Ok) (h : stepReader s = .next t) : t.ru.Ok := by
  by_cases hreset : ∃ bytes rest, s.ru.ctl = .reset bytes :: rest
  · obtain ⟨bytes, rest, hctl⟩ := hreset
    cases h.symm.trans (stepReader_served hctl)
    exact Reader.resetOn_ok bytes _
  · obtain ⟨n, hn⟩ := stepReader_advanced hok (fun bytes rest hctl => hreset ⟨bytes, rest, hctl⟩) h
    exact hn.ok hok

/-! ## A writer command appends bits, or emits the pending byte -/

/-- The bits written so far, emitted and pending (R66). -/
def Writer.written (w : Writer) : List Bool := bytesBits w.sink ++ w.pendingBits

/-- `q` is `w` with these bits appended, as its registers and its sink show. -/
def Writer.Appended (bits : List Bool) (w q : Writer) : Prop :=
  q.sink = (w.append bits).sink ∧ q.pendingByte = (w.append bits).pendingByte ∧
    q.bitMask = (w.append bits).bitMask ∧ q.position = (w.append bits).position

theorem Writer.appended_append (bits : List Bool) (w : Writer) : w.Appended bits (w.append bits) :=
  ⟨rfl, rfl, rfl, rfl⟩

theorem Writer.appended_nil {w : Writer} (hok : w.Ok) : w.Appended [] w := by
  simpa only [Writer.append_nil hok] using w.appended_append []

theorem Writer.Appended.ok {bits : List Bool} {w q : Writer} (h : w.Appended bits q) : q.Ok := by
  obtain ⟨_, hbyte, hmask, _⟩ := h
  have hok := Writer.append_ok w bits
  simpa only [Writer.Ok, hbyte, hmask] using hok

theorem Writer.Appended.written {bits : List Bool} {w q : Writer} (h : w.Appended bits q) :
    q.written = w.written ++ bits := by
  obtain ⟨hsink, hbyte, hmask, _⟩ := h
  rw [Writer.written, Writer.written, ← Writer.append_written, hsink, Writer.pendingBits, Writer.pendingBits, hbyte,
    hmask]

theorem Writer.Appended.position {bits : List Bool} {w q : Writer} (h : w.Appended bits q) :
    q.position = w.position + BitVec.ofNat 64 bits.length := by
  obtain ⟨_, _, _, hposition⟩ := h
  exact hposition

theorem Writer.written_length {w : Writer} (hok : w.Ok) :
    w.written.length = 8 * w.sink.length + maskIndex w.bitMask := by
  rw [Writer.written, List.length_append, bytesBits_length, Writer.pendingBits_length hok]

theorem completeWriter_appended {s : State} {w q : Writer} {bits : List Bool} (hq : q = w.append bits) :
    w.Appended bits (s.completeWriter q).wu := by
  subst hq
  exact w.appended_append bits

theorem exec_payload_appended {c : PayloadCmd} {s t : State} (hok : s.wu.Ok) (h : exec c.instr s = .next t) :
    ∃ bits, s.wu.Appended bits t.wu := by
  cases packet : takePacket s.wu.wstream with
  | none =>
    cases h.symm.trans (exec_payload_waits c packet)
    exact ⟨[], Writer.appended_nil hok⟩
  | some x =>
    obtain ⟨payload, rest⟩ := x
    have htaken := Writer.packetTaken_ok rest hok
    cases c with
    | wrbits =>
      cases h.symm.trans (exec_wrbits_packet packet)
      exact ⟨_, completeWriter_appended (w := s.wu.packetTaken rest) (Writer.writeBits_eq htaken _)⟩
    | wrstr =>
      cases h.symm.trans (exec_wrstr_packet packet)
      exact ⟨_, completeWriter_appended (w := s.wu.packetTaken rest) (Writer.writeString_eq htaken _)⟩
    | wrbuf o l =>
      by_cases bad : o < 0 ∨ o > payload.length ∨ l < 0 ∨ o + l > payload.length
      · cases h.symm.trans (exec_wrbuf_raises packet bad)
        exact ⟨[], Writer.appended_nil hok⟩
      · cases h.symm.trans (exec_wrbuf_completes packet bad)
        exact ⟨_, completeWriter_appended (w := s.wu.packetTaken rest) (Writer.writeBytes_eq htaken _)⟩

theorem exec_writer_appended {i : Instr} {s t : State} (hport : i.port = .wu) (hflush : i ≠ .flush)
    (hfinish : i ≠ .finish) (hok : s.wu.Ok) (h : exec i s = .next t) : ∃ bits, s.wu.Appended bits t.wu := by
  cases i <;> simp only [Instr.port, reduceCtorEq] at hport
  case flush => exact absurd rfl hflush
  case finish => exact absurd rfl hfinish
  case wrbits => exact exec_payload_appended (c := .wrbits) hok h
  case wrbuf o l => exact exec_payload_appended (c := .wrbuf o l) hok h
  case wrstr => exact exec_payload_appended (c := .wrstr) hok h
  case wrbit b =>
    cases h.symm.trans (exec_wrbit b s)
    exact ⟨_, completeWriter_appended (Writer.wrbit_eq hok b)⟩
  case wrbyte b =>
    cases h.symm.trans (exec_wrbyte b s)
    exact ⟨_, completeWriter_appended (Writer.writeByte_eq hok b)⟩
  case wrb2 v l =>
    cases h.symm.trans (exec_wrb2 v l s)
    exact ⟨_, completeWriter_appended (Writer.emitBase2_eq hok v l.toNat)⟩
  case wrfibu v =>
    cases h.symm.trans (exec_wrfibu v s)
    exact ⟨_, completeWriter_appended (Writer.writeBits_eq hok _)⟩
  case wrfibs v =>
    by_cases bad : v ≤ 0
    · cases h.symm.trans (exec_wrfibs_raises s bad)
      exact ⟨[], Writer.appended_nil hok⟩
    · cases h.symm.trans (exec_wrfibs_completes s bad)
      exact ⟨_, completeWriter_appended (Writer.writeBits_eq hok _)⟩

/-- FLUSH and FINISH emit the pending byte, or, FINISH on a byte boundary, change nothing (R179, R180). -/
theorem exec_flush_or_finish {s t : State} (h : exec .flush s = .next t ∨ exec .finish s = .next t) :
    t = s.completeWriter s.wu.emitPending ∨ t = s.completeWriter s.wu := by
  obtain h | h := h
  · cases h.symm.trans (exec_flush s)
    exact .inl rfl
  · by_cases hmask : s.wu.bitMask = 0x80#8
    · cases h.symm.trans (exec_finish_boundary hmask)
      exact .inr rfl
    · cases h.symm.trans ((exec_finish_pending hmask).trans (exec_flush s))
      exact .inl rfl

/-- Settles O44: `position` counts the bits appended, and the sink and the pending bits grow by them. -/
theorem positionCountsTheBitsWritten : Obligations.PositionCountsTheBitsWritten := by
  refine ⟨fun i s t hport hflush hfinish hok h => ?_, fun s t h => ?_⟩
  · obtain ⟨bits, happended⟩ := exec_writer_appended hport hflush hfinish hok h
    have hlength := congrArg List.length happended.written
    rw [List.length_append, Writer.written_length hok, Writer.written_length happended.ok] at hlength
    exact ⟨bits.length, happended.position, hlength⟩
  · obtain rfl | rfl := exec_flush_or_finish h <;> rfl

/-- Every writer command keeps the writer in order and the bits written before it. -/
theorem exec_writer_keeps {i : Instr} {s t : State} (hport : i.port = .wu) (hok : s.wu.Ok) (h : exec i s = .next t) :
    t.wu.Ok ∧ s.wu.written <+: t.wu.written := by
  by_cases hends : i = .flush ∨ i = .finish
  · have hcases : t = s.completeWriter s.wu.emitPending ∨ t = s.completeWriter s.wu := by
      apply exec_flush_or_finish
      obtain rfl | rfl := hends
      · exact .inl h
      · exact .inr h
    obtain rfl | rfl := hcases
    · refine ⟨Writer.emitPending_ok s.wu, ?_⟩
      show s.wu.written <+: bytesBits s.wu.emitPending.sink ++ s.wu.emitPending.pendingBits
      rw [Writer.emitPending_written hok, List.append_assoc]
      exact List.prefix_append _ _
    · exact ⟨hok, List.prefix_refl _⟩
  · obtain ⟨hflush, hfinish⟩ := not_or.mp hends
    obtain ⟨bits, happended⟩ := exec_writer_appended hport hflush hfinish hok h
    exact ⟨happended.ok, happended.written ▸ List.prefix_append _ _⟩

theorem Writer.readStatus_frame (n : Nat) (w : Writer) :
    ∃ answers draws, w.readStatus n = { w with statusOut := answers, draws := draws } := by
  obtain hwaiting | ⟨c, hwaiting⟩ := Option.eq_none_or_eq_some w.waiting
  · exact ⟨_, _, Writer.readStatus_idle hwaiting n⟩
  · exact ⟨_, _, Writer.readStatus_busy hwaiting n⟩

/-- But for a reset, WU's move keeps the writer in order and the bits written before it. -/
theorem stepWriter_keeps {s t : State} (hok : s.wu.Ok) (hreset : ∀ rest, s.wu.ctl ≠ .reset :: rest)
    (h : stepWriter s = .next t) : t.wu.Ok ∧ s.wu.written <+: t.wu.written := by
  cases stepWriter_cases h with
  | served c rest ctl eq =>
    cases c with
    | reset => exact absurd ctl (hreset rest)
    | readStatus n =>
      obtain ⟨answers, draws, hread⟩ := Writer.readStatus_frame n { s.wu with ctl := rest }
      rw [eq, Writer.serve, hread]
      exact ⟨hok, List.prefix_refl _⟩
  | resumed c ctl waiting eq => exact exec_writer_keeps c.instr_port hok eq
  | idle ctl waiting cmds eq => subst eq; exact ⟨hok, List.prefix_refl _⟩
  | ran w rest i ctl waiting cmds port decoded eq => exact exec_writer_keeps (s := s.acceptWriter rest) port hok eq
  | raised w rest e ctl waiting cmds decoded eq =>
    rw [eq]
    exact ⟨hok, List.prefix_refl _⟩

theorem Writer.resetUnit_ok (w : Writer) : w.resetUnit.Ok := ⟨rfl, BitVec.zero_and⟩

theorem stepWriter_ok {s t : State} (hok : s.wu.Ok) (h : stepWriter s = .next t) : t.wu.Ok := by
  by_cases hreset : ∃ rest, s.wu.ctl = .reset :: rest
  · obtain ⟨rest, hctl⟩ := hreset
    cases h.symm.trans (stepWriter_served hctl)
    exact Writer.resetUnit_ok _
  · exact (stepWriter_keeps hok (fun rest hctl => hreset ⟨rest, hctl⟩) h).1

/-! ## Every step -/

/-- Settles O48: the registers after reset are those the rules state. -/
theorem resetMeetsTheInvariant : Obligations.ResetMeetsTheInvariant := by
  unfold Obligations.ResetMeetsTheInvariant
  decide

/-- Settles O49: the unit that moves keeps its invariant, the other is as it was. -/
theorem everyStepKeepsTheInvariant : Obligations.EveryStepKeepsTheInvariant := by
  intro s t ⟨hru, hwu⟩ h
  cases step_cases h with
  | reader turn move other passed => exact ⟨stepReader_ok (s := { s with turn := .wu }) hru move, other ▸ hwu⟩
  | writer turn move other passed => exact ⟨other ▸ hru, stepWriter_ok (s := { s with turn := .ru }) hwu move⟩

theorem stepWriter_sink_prefix {s t : State} (h : stepWriter s = .next t) : s.wu.sink <+: t.wu.sink := by
  cases stepWriter_cases h with
  | served c rest ctl eq =>
    cases c with
    | reset => rw [eq]; exact List.prefix_refl _
    | readStatus n =>
      obtain ⟨answers, draws, hread⟩ := Writer.readStatus_frame n { s.wu with ctl := rest }
      rw [eq, Writer.serve, hread]
  | resumed c ctl waiting eq =>
    obtain ⟨_, _, _, _, _, _, hsink, _⟩ := exec_writer_frame c.instr_port eq
    exact hsink
  | idle ctl waiting cmds eq => rw [eq]
  | ran w rest i ctl waiting cmds port decoded eq =>
    obtain ⟨_, _, _, _, _, _, hsink, _⟩ := exec_writer_frame port eq
    exact hsink
  | raised w rest e ctl waiting cmds decoded eq => rw [eq]; exact List.prefix_refl _

/-- Settles O52: RU's move leaves the sink alone, WU's adds at its end. -/
theorem theSinkOnlyGrows : Obligations.TheSinkOnlyGrows := by
  intro s t h
  cases step_cases h with
  | reader turn move other passed => rw [other]
  | writer turn move other passed => exact stepWriter_sink_prefix (s := { s with turn := .ru }) move

theorem stepReader_source {s t : State} (hreset : ∀ bytes rest, s.ru.ctl ≠ .reset bytes :: rest)
    (h : stepReader s = .next t) : t.ru.source = s.ru.source ∧ t.ru.srcLen = s.ru.srcLen := by
  cases stepReader_cases h with
  | served c rest ctl eq =>
    cases c with
    | reset bytes => exact absurd ctl (hreset bytes rest)
    | readStatus n =>
      obtain ⟨answers, draws, hread⟩ := Reader.readStatus_frame n { s.ru with ctl := rest }
      rw [eq, Reader.serve, hread]
      exact ⟨rfl, rfl⟩
  | looped f ctl fib eq =>
    have moved := s.ru.rdbit_moved
    subst eq
    unfold State.continueFib
    simp only
    split <;> simp [moved.source, moved.srcLen]
  | idle ctl fib cmds eq => exact eq ▸ ⟨rfl, rfl⟩
  | ran w rest i ctl fib cmds port decoded eq =>
    obtain ⟨_, _, hsource, hlen, _⟩ := exec_reader_frame port eq
    exact ⟨hsource, hlen⟩
  | raised w rest e ctl fib cmds decoded eq =>
    rw [eq]
    exact ⟨rfl, rfl⟩

/-- Settles O53: without a reset RU's move keeps its source from every state, and advances from a state in order. -/
theorem theSourceIsImmutableBetweenResets : Obligations.TheSourceIsImmutableBetweenResets := by
  intro s t h hreset
  cases step_cases h with
  | reader turn move other passed =>
    obtain ⟨hsource, hlen⟩ := stepReader_source (s := { s with turn := .wu }) hreset move
    refine ⟨hsource, hlen, fun hok => ?_⟩
    obtain ⟨n, hn⟩ := stepReader_advanced (s := { s with turn := .wu }) hok hreset move
    exact hn.cursor_le
  | writer turn move other passed => rw [other]; exact ⟨rfl, rfl, fun _ => le_rfl⟩

/-! ## The end of a writer's run (R254) -/

/-- A writer on its way to the end of a run: its host asserts no reset, and FINISH or FLUSH is the last word still
presented, or every word has been taken and nothing is pending. -/
def Writer.Ending (w : Writer) : Prop :=
  w.Ok ∧ (∀ c ∈ w.ctl, ∃ n, c = .readStatus n) ∧
    ((∃ x, w.cmds.getLast? = some x ∧ endsWriterRun x = true) ∨
      (w.cmds = [] ∧ w.waiting = none ∧ w.bitMask = 0x80#8))

theorem endsWriterRun_iff (x : CmdWord) :
    endsWriterRun x = true ↔ decode .wu x = .ok .finish ∨ decode .wu x = .ok .flush := by
  simp [endsWriterRun]

theorem Writer.Ending.no_reset {w : Writer} (h : w.Ending) (rest : List WriterControl) : w.ctl ≠ .reset :: rest := by
  obtain ⟨_, hreads, _⟩ := h
  intro hctl
  obtain ⟨n, hn⟩ := hreads .reset (by simp [hctl])
  cases hn

/-- FINISH or FLUSH as the last word leaves every word taken and nothing pending. -/
theorem exec_last_word {s t : State} {i : Instr} {x : CmdWord} (hends : endsWriterRun x = true)
    (hdecode : decode .wu x = .ok i) (h : exec i s = .next t) :
    t.wu.bitMask = 0x80#8 ∧ t.wu.waiting = s.wu.waiting := by
  have hi : i = .finish ∨ i = .flush := by
    rw [endsWriterRun_iff, hdecode] at hends
    simpa using hends
  have hnoPacket : ∀ c : PayloadCmd, i ≠ c.instr := by
    rintro c rfl
    cases c <;> simp [PayloadCmd.instr] at hi
  refine ⟨?_, (exec_noPacket_frame hnoPacket h).2⟩
  obtain rfl | rfl := hi
  · exact bitMask_of_finish_or_flush (.inl h)
  · exact bitMask_of_finish_or_flush (.inr h)

/-- Of the words presented the first is taken: it was the last one, or the last one is still presented. -/
theorem ending_rest {w : CmdWord} {rest : List CmdWord}
    (h : ∃ x, (w :: rest).getLast? = some x ∧ endsWriterRun x = true) :
    (rest = [] ∧ endsWriterRun w = true) ∨ ∃ x, rest.getLast? = some x ∧ endsWriterRun x = true := by
  obtain ⟨x, hx, hends⟩ := h
  cases rest with
  | nil =>
    cases hx
    exact .inl ⟨rfl, hends⟩
  | cons v rest => exact .inr ⟨x, (List.getLast?_cons_cons).symm.trans hx, hends⟩

theorem stepWriter_ending {s t : State} (h : s.wu.Ending) (ht : stepWriter s = .next t) : t.wu.Ending := by
  have hok := (stepWriter_keeps h.1 h.no_reset ht).1
  obtain ⟨_, hreads, hend⟩ := h
  refine ⟨hok, ?_⟩
  cases stepWriter_cases ht with
  | served c rest ctl eq =>
    rw [ctl] at hreads
    obtain ⟨⟨n, rfl⟩, hrest⟩ := List.forall_mem_cons.mp hreads
    obtain ⟨answers, draws, hread⟩ := Writer.readStatus_frame n { s.wu with ctl := rest }
    rw [eq, Writer.serve, hread]
    exact ⟨hrest, hend⟩
  | resumed c ctl waiting eq =>
    obtain ⟨_, _, hctl, hcmds, _⟩ := exec_writer_frame c.instr_port eq
    rw [hctl, hcmds]
    refine ⟨hreads, .inl ?_⟩
    obtain hlast | ⟨_, hidle, _⟩ := hend
    · exact hlast
    · simp [hidle] at waiting
  | idle ctl waiting cmds eq => exact eq ▸ ⟨hreads, hend⟩
  | ran w rest i ctl waiting cmds port decoded eq =>
    obtain ⟨_, _, hctl, hcmds, _⟩ := exec_writer_frame port eq
    rw [hctl, hcmds]
    refine ⟨hreads, ?_⟩
    obtain hlast | ⟨hnone, _⟩ := hend
    · obtain ⟨rfl, hends⟩ | hrest := ending_rest (cmds ▸ hlast)
      · obtain ⟨hmask, hwaiting⟩ := exec_last_word hends decoded eq
        exact .inr ⟨rfl, hwaiting.trans waiting, hmask⟩
      · exact .inl hrest
    · simp [hnone] at cmds
  | raised w rest e ctl waiting cmds decoded eq =>
    rw [eq]
    refine ⟨hreads, .inl ?_⟩
    obtain hlast | ⟨hnone, _⟩ := hend
    · obtain ⟨rfl, hends⟩ | hrest := ending_rest (cmds ▸ hlast)
      · simp [endsWriterRun_iff, decoded] at hends
      · exact hrest
    · simp [hnone] at cmds

theorem step_ending {s t : State} (h : s.wu.Ending) (ht : step s = .next t) :
    t.wu.Ending ∧ s.wu.written <+: t.wu.written := by
  cases step_cases ht with
  | reader turn move other passed => rw [other]; exact ⟨h, List.prefix_refl _⟩
  | writer turn move other passed =>
    exact ⟨stepWriter_ending (s := { s with turn := .ru }) h move,
      (stepWriter_keeps (s := { s with turn := .ru }) h.1 h.no_reset move).2⟩

theorem run_ending {s t : State} {k : Nat} (h : s.wu.Ending) (hrun : Host.Core.run core k s = .next t) :
    t.wu.Ending ∧ s.wu.written <+: t.wu.written :=
  run_induction (P := fun u => u.wu.Ending ∧ s.wu.written <+: u.wu.written)
    (fun _ _ ⟨hending, hprefix⟩ hstep => (step_ending hending hstep).imp_right hprefix.trans)
    ⟨h, List.prefix_refl _⟩ hrun

/-- Settles O58: a run to a complete end keeps all it has written, and ends on a byte boundary. -/
theorem aCompleteWriterRunLeavesNoBitPending : Obligations.ACompleteWriterRunLeavesNoBitPending := by
  intro s t k hok hwaiting hreads hrun hcomplete
  simp only [Writer.complete, Bool.and_eq_true, List.isEmpty_iff, Option.any_eq_true] at hcomplete
  obtain ⟨⟨⟨hlast, hcmds⟩, _⟩, _⟩ := hcomplete
  have hstart : s.wu.Ending := ⟨hok, hreads, .inl hlast⟩
  have hpending : t.wu.pendingBits = [] := by
    obtain ⟨⟨_, _, hend⟩, _⟩ := run_ending hstart hrun
    obtain ⟨x, hx, _⟩ | ⟨_, _, hmask⟩ := hend
    · simp [hcmds] at hx
    · exact Writer.pendingBits_nil hmask
  refine ⟨hpending, fun j u hj hu => ?_⟩
  obtain ⟨hending, _⟩ := run_ending hstart hu
  have hrest : Host.Core.run core (k - j) u = .next t := by
    rw [← run_add hu, Nat.add_sub_cancel' hj, hrun]
  have hprefix := (run_ending hending hrest).2
  rwa [Writer.written, Writer.written, hpending, List.append_nil] at hprefix

end Sys2Proof.Machine

/-! # Proofs of the family other: stream laws

A field's command writes the field's bits, and the read of that kind and length takes them back (R68, R80 to R86). -/

namespace Sys2Proof.Machine

/-! ## Bits and values of a field -/

theorem bitsValue_cons (b : Bool) (bits : List Bool) :
    bitsValue (b :: bits) = b.toNat * 2 ^ bits.length + bitsValue bits := by
  induction bits using List.reverseRecOn with
  | nil => simp [bitsValue]
  | append_singleton bits c ih =>
    rw [← List.cons_append, bitsValue_concat, bitsValue_concat, ih, List.length_append, List.length_singleton, pow_succ]
    ring

theorem base2Bits_length (len : Nat) (v : Word) : (base2Bits len v).length = len := by
  simp [base2Bits]

/-- A base2 field's bits stand for the low bits of its value (R83). -/
theorem bitsValue_base2Bits (len : Nat) (v : Word) : bitsValue (base2Bits len v) = v.toNat % 2 ^ len := by
  induction len with
  | zero => simp [base2Bits, bitsValue, Nat.mod_one]
  | succ i ih =>
    rw [base2Bits_succ, bitsValue_cons, ih, base2Bits_length, Nat.mod_pow_succ, ← Nat.toNat_testBit,
      BitVec.testBit_toNat]
    ring

/-- Bits carried as items 0x00 and 0x01 (R99, R172). -/
theorem map_bitItems (bs : List Bool) :
    (bs.map fun b => if b then 0x01#8 else 0x00#8).map (fun b : Byte => b.getLsbD 0) = bs := by
  rw [List.map_map, List.map_congr_left (g := id) fun b _ => by cases b <;> rfl, List.map_id]

/-- Stream bit `k` of a byte sequence is bit `7 - (k mod 8)` of byte `k div 8` (R7). -/
theorem bytesBits_getD (bs : List Byte) (k : Nat) :
    (bytesBits bs).getD k false = (bs.getD (k / 8) 0x00#8).getLsbD (7 - k % 8) := by
  induction bs generalizing k with
  | nil => simp [bytesBits]
  | cons b bs ih =>
    rw [bytesBits_cons]
    by_cases hk : k < 8
    · rw [List.getD_append _ _ _ _ (by rwa [byteBits_length]), Nat.div_eq_of_lt hk, Nat.mod_eq_of_lt hk]
      simp [byteBits, hk]
    · obtain ⟨m, rfl⟩ := Nat.exists_eq_add_of_le' (Nat.not_lt.mp hk)
      rw [List.getD_append_right _ _ _ _ (by rw [byteBits_length]; omega), byteBits_length, Nat.add_sub_cancel, ih,
        Nat.add_div_right m (by decide), Nat.add_mod_right, List.getD_cons_succ]

section
variable {r : Reader}

theorem Reader.streamBits_append_inj {k m n : Nat} {xs ys : List Bool} (hx : xs.length = m)
    (h : r.streamBits k (m + n) = xs ++ ys) : r.streamBits k m = xs ∧ r.streamBits (k + m) n = ys := by
  rw [Reader.streamBits_add] at h
  exact List.append_inj h (by rw [Reader.streamBits_length, hx])

/-- Where the bits of a byte sequence stand ahead, its bytes do. -/
theorem Reader.streamByte_of_bytesBits {k : Nat} {bs : List Byte} (h : r.streamBits k (8 * bs.length) = bytesBits bs)
    {j : Nat} (hj : j < bs.length) : r.streamByte (k + 8 * j) = bs[j] := by
  induction bs generalizing k j with
  | nil => simp at hj
  | cons b bs ih =>
    rw [List.length_cons, Nat.mul_succ, Nat.add_comm, bytesBits_cons] at h
    obtain ⟨hfirst, hrest⟩ := Reader.streamBits_append_inj (byteBits_length b) h
    cases j with
    | zero =>
      simp only [Reader.streamByte, Nat.mul_zero, Nat.add_zero, hfirst, packByte_byteBits, List.getElem_cons_zero]
    | succ j =>
      rw [List.getElem_cons_succ, ← ih hrest (by simpa using hj)]
      congr 1
      omega

theorem Reader.streamBytes_of_bytesBits {k : Nat} {bs : List Byte} (h : r.streamBits k (8 * bs.length) = bytesBits bs) :
    (List.range bs.length).map (fun j => r.streamByte (k + 8 * j)) = bs := by
  apply List.ext_getElem
  · simp
  · intro j _ hj
    rw [List.getElem_map, List.getElem_range, Reader.streamByte_of_bytesBits h hj]

end

/-! ## Writing a field -/

/-- A field's command appends the field's bits and takes the field's packet. -/
theorem exec_writeCommand {s : State} {f : Field} {rest : List Item} (hf : f.wellFormed = true) (hok : s.wu.Ok)
    (hwaiting : s.wu.waiting = none) (hstream : s.wu.wstream = f.packet ++ rest) :
    exec f.writeCommand s = .next (s.completeWriter (Writer.append f.stream (s.wu.packetTaken rest))) := by
  have hnoPacket : s.wu.wstream = rest → s.wu.packetTaken rest = s.wu := by
    intro hrest
    rw [Writer.packetTaken, ← hrest, ← hwaiting]
  have htaken := Writer.packetTaken_ok rest hok
  cases f with
  | bit b =>
    rw [hnoPacket hstream]
    exact (exec_wrbit b s).trans (by rw [Writer.wrbit_eq hok]; rfl)
  | bits bs =>
    have hpacket := hstream ▸ presentedPacketIsTaken (bs.map fun b : Bool => if b then 0x01#8 else 0x00#8) rest
    exact (exec_wrbits_packet hpacket).trans (by rw [map_bitItems, Writer.writeBits_eq htaken]; rfl)
  | base2 len v =>
    rw [hnoPacket hstream]
    exact (exec_wrb2 v len s).trans (by rw [Writer.emitBase2_eq hok]; rfl)
  | byte b =>
    rw [hnoPacket hstream]
    exact (exec_wrbyte b s).trans (by rw [Writer.writeByte_eq hok]; rfl)
  | bytes bs =>
    have hpacket := hstream ▸ presentedPacketIsTaken bs rest
    have hwindow : window bs 0 bs.length = bs := by simp [window]
    exact (exec_wrbuf_completes hpacket (by omega)).trans (by rw [hwindow, Writer.writeBytes_eq htaken]; rfl)
  | string bs =>
    have hpacket := hstream ▸ presentedPacketIsTaken bs rest
    have huntil : untilZero bs = bs := List.takeWhile_eq_self_iff.mpr (List.all_eq_true.mp hf)
    exact (exec_wrstr_packet hpacket).trans (by rw [Writer.writeString_eq htaken, huntil]; rfl)
  | fib v =>
    rw [hnoPacket hstream]
    exact (exec_wrfibu v s).trans (by rw [Writer.writeBits_eq hok]; rfl)

theorem execAll_cons {i : Instr} {s t : State} (h : exec i s = .next t) (rest : List Instr) :
    execAll (i :: rest) s = execAll rest t := by
  simp only [execAll, h]

theorem execAll_append {xs : List Instr} {s t : State} (h : execAll xs s = .next t) (ys : List Instr) :
    execAll (xs ++ ys) s = execAll ys t := by
  induction xs generalizing s with
  | nil =>
    cases h
    rfl
  | cons i xs ih =>
    obtain ⟨u, hu⟩ := exec_next i s
    rw [execAll_cons hu] at h
    rw [List.cons_append, execAll_cons hu, ih h]

/-- The commands of a plan write its fields one after another. -/
theorem execAll_writeCommands {plan : List Field} {s : State} (hplan : ∀ f ∈ plan, f.wellFormed = true) (hok : s.wu.Ok)
    (hwaiting : s.wu.waiting = none) (hstream : s.wu.wstream = plan.flatMap Field.packet) :
    ∃ t, execAll (plan.map Field.writeCommand) s = .next t ∧ t.ru = s.ru ∧ t.wu.Ok ∧
      t.wu.written = s.wu.written ++ plan.flatMap Field.stream := by
  induction plan generalizing s with
  | nil => exact ⟨s, rfl, rfl, hok, by simp⟩
  | cons f plan ih =>
    obtain ⟨hf, hplan⟩ := List.forall_mem_cons.mp hplan
    have hexec := exec_writeCommand hf hok hwaiting hstream
    have happended := completeWriter_appended (s := s) (w := s.wu.packetTaken (plan.flatMap Field.packet)) rfl
      (bits := f.stream)
    obtain ⟨t, ht, hru, htok, hwritten⟩ := ih hplan happended.ok rfl rfl
    refine ⟨t, (execAll_cons hexec _).trans ht, hru, htok, ?_⟩
    rw [hwritten, happended.written, List.flatMap_cons, ← List.append_assoc]
    rfl

/-- FINISH leaves the written bits in the sink, padded with zeros to a byte (R90, R180). -/
theorem exec_finish_written {s : State} (hok : s.wu.Ok) :
    ∃ t, exec .finish s = .next t ∧ t.ru = s.ru ∧
      bytesBits t.wu.sink = s.wu.written ++ List.replicate ((8 - s.wu.written.length % 8) % 8) false := by
  have hlength := Writer.written_length hok
  have hpending := Writer.pendingBits_length hok
  obtain ⟨hmask, hlt⟩ := (oneHot_iff s.wu.bitMask).mp hok.1
  by_cases hboundary : s.wu.bitMask = 0x80#8
  · have hnone := Writer.pendingBits_nil hboundary
    have hpad : (8 - s.wu.written.length % 8) % 8 = 0 := by
      rw [hnone, List.length_nil] at hpending
      omega
    refine ⟨_, exec_finish_boundary hboundary, rfl, ?_⟩
    rw [hpad, Writer.written, hnone, List.append_nil]
    exact (List.append_nil _).symm
  · have hpad : (8 - s.wu.written.length % 8) % 8 = 8 - s.wu.pendingBits.length := by
      have hne : maskIndex s.wu.bitMask ≠ 0 := fun h0 => hboundary (by rw [hmask, h0]; rfl)
      omega
    refine ⟨_, (exec_finish_pending hboundary).trans (exec_flush s), rfl, ?_⟩
    rw [hpad]
    exact Writer.emitPending_written hok

/-! ## Reading a field -/

/-- Where a string's bits stand ahead, RDSTR takes its bytes and its zero byte. -/
theorem exec_rdstr_string {s : State} (hok : s.ru.Ok) {bs : List Byte} (hnonzero : ∀ b ∈ bs, decide (b ≠ 0x00#8) = true)
    (hahead : s.ru.streamBits s.ru.bitpos (8 * (bs.length + 1)) = stringBits bs) :
    exec .rdstr s = .next (s.completeReader (s.ru.advance (8 * (bs.length + 1))) bs (BitVec.ofNat 64 bs.length)) := by
  rw [Nat.mul_succ] at hahead
  obtain ⟨hbytes, hzero⟩ := Reader.streamBits_append_inj (bytesBits_length bs) hahead
  have hzero' : s.ru.streamByte (s.ru.bitpos + 8 * bs.length) = 0x00#8 := by
    rw [Reader.streamByte, hzero, packByte_byteBits]
  have hbefore : ∀ j < bs.length, s.ru.streamByte (s.ru.bitpos + 8 * j) ≠ 0x00#8 := fun j hj => by
    rw [Reader.streamByte_of_bytesBits hbytes hj]
    exact of_decide_eq_true (hnonzero _ (List.getElem_mem hj))
  obtain ⟨k, hfuel, hbefore', hk⟩ := s.ru.exists_first_zero
  obtain rfl : k = bs.length := by
    by_contra hne
    rcases Nat.lt_or_gt_of_ne hne with hlt | hgt
    · exact hbefore k hlt hk
    · exact hbefore' bs.length hgt hzero'
  rw [exec_rdstr, Reader.readString_eq hok hfuel hbefore hzero', Reader.streamBytes_of_bytesBits hbytes]

/-- Where a field's bits stand ahead, the read of its kind and length answers its value, pushes its items, and consumes
exactly its bits. -/
theorem exec_readCommand {s : State} {f : Field} (hf : f.wellFormed = true) (hok : s.ru.Ok)
    (hahead : s.ru.streamBits s.ru.bitpos f.stream.length = f.stream) :
    exec f.readCommand s = .next (s.completeReader (s.ru.advance f.stream.length) f.readItems f.readValue) := by
  cases f with
  | bit b =>
    have hbit : s.ru.streamBit s.ru.bitpos = b := by
      simpa [Field.stream, Reader.streamBits_succ, Reader.streamBits_zero] using hahead
    exact (exec_rdbit s).trans (by rw [Reader.rdbit_eq hok, hbit]; rfl)
  | bits bs =>
    have hread : s.ru.readBits bs.length = (bs, s.ru.advance bs.length) :=
      (Reader.readBits_eq hok bs.length).trans (congrArg (·, _) hahead)
    exact (exec_rdbits bs.length s).trans (by rw [hread]; rfl)
  | base2 len v =>
    simp only [Field.wellFormed, Bool.and_eq_true, decide_eq_true_eq] at hf
    obtain ⟨⟨hlow, hhigh⟩, hfits⟩ := hf
    rw [Field.stream, base2Bits_length] at hahead
    have hvalue : BitVec.ofNat 64 (bitsValue (base2Bits len v)) = v := by
      rw [bitsValue_base2Bits, Nat.mod_eq_of_lt hfits, BitVec.ofNat_toNat, BitVec.setWidth_eq]
    refine (exec_rdb2_completes s (by omega)).trans ?_
    rw [Int.toNat_natCast, Reader.readBase2_eq hok, hahead, hvalue, Field.stream, base2Bits_length]
    rfl
  | byte b =>
    rw [Field.stream, byteBits_length] at hahead
    have hbyte : s.ru.streamByte s.ru.bitpos = b := by rw [Reader.streamByte, hahead, packByte_byteBits]
    refine (exec_rdbyte s).trans ?_
    rw [Reader.readByte_eq hok, hbyte, Field.stream, byteBits_length]
    rfl
  | bytes bs =>
    rw [Field.stream, bytesBits_length] at hahead
    refine (exec_rdbytes bs.length s).trans ?_
    rw [Reader.readBytes_eq hok, Reader.streamBytes_of_bytesBits hahead, Field.stream, bytesBits_length]
    rfl
  | string bs =>
    have hlength : (stringBits bs).length = 8 * (bs.length + 1) := by
      rw [← bytesBits_terminated, bytesBits_length, List.length_append, List.length_singleton]
    rw [Field.stream, hlength] at hahead
    refine (exec_rdstr_string hok (List.all_eq_true.mp hf) hahead).trans ?_
    rw [Field.stream, hlength]
    rfl
  | fib v =>
    exact (fibonacciRoundTrip s v hok (of_decide_eq_true hf) hahead).trans
      (by rw [State.completeReader, Field.readItems, Reader.push_nil]; rfl)

/-- The reads of a plan take its fields one after another. -/
theorem execAll_readCommands {plan : List Field} {s : State} (hplan : ∀ f ∈ plan, f.wellFormed = true) (hok : s.ru.Ok)
    (hahead : s.ru.streamBits s.ru.bitpos (plan.flatMap Field.stream).length = plan.flatMap Field.stream) :
    ∃ u, execAll (plan.map Field.readCommand) s = .next u ∧
      u.ru.responses = s.ru.responses ++ plan.map (fun f => { status := .ok, value := f.readValue }) ∧
      u.ru.rstream = s.ru.rstream ++ plan.flatMap Field.readItems := by
  induction plan generalizing s with
  | nil => exact ⟨s, rfl, by simp, by simp⟩
  | cons f plan ih =>
    obtain ⟨hf, hplan⟩ := List.forall_mem_cons.mp hplan
    rw [List.flatMap_cons, List.length_append] at hahead
    obtain ⟨hfield, hrest⟩ := Reader.streamBits_append_inj rfl hahead
    have hexec := exec_readCommand hf hok hfield
    rw [← Reader.streamBits_bitpos_advance] at hrest
    obtain ⟨u, hu, hresponses, hitems⟩ := ih
      (s := s.completeReader (s.ru.advance f.stream.length) f.readItems f.readValue) hplan (Reader.advance_ok hok _) hrest
    refine ⟨u, (execAll_cons hexec _).trans hu, ?_, ?_⟩
    · simp [hresponses, Reader.advance_responses]
    · simp [hitems, Reader.advance_rstream]

/-- A reader reset on a byte sequence stands in front of its bits. -/
theorem Reader.resetOn_streamBit {bytes : List Byte} (hbytes : bytes.length < 2 ^ 64) (r : Reader) (k : Nat) :
    (r.resetOn bytes).streamBit k = (bytesBits bytes).getD k false := by
  simp only [Reader.streamBit, Reader.resetOn_srcLen hbytes, Reader.resetOn_read hbytes, bytesBits_getD]
  split
  · rfl
  · rename_i hpast
    rw [List.getD_eq_default _ _ (Nat.not_lt.mp hpast), BitVec.getLsbD_zero]

theorem Reader.resetOn_streamBits {bytes : List Byte} (hbytes : bytes.length < 2 ^ 64) (r : Reader) {xs ys : List Bool}
    (h : bytesBits bytes = xs ++ ys) : (r.resetOn bytes).streamBits 0 xs.length = xs := by
  apply List.ext_getElem (Reader.streamBits_length _ _ _)
  intro j _ hj
  simp only [Reader.streamBits, List.getElem_map, List.getElem_range, Nat.zero_add, Reader.resetOn_streamBit hbytes]
  rw [h, List.getD_append _ _ _ _ hj, List.getD_eq_getElem _ _ hj]

/-- Settles O56: the sink holds the plan's bits, and each read consumes exactly its field's. -/
theorem anyPlanOfFieldsReadsBack : Obligations.AnyPlanOfFieldsReadsBack := by
  intro plan hplan hlen
  obtain ⟨v, hv, hvru, hvok, hwritten⟩ := execAll_writeCommands
    (s := { State.reset with wu := { Writer.reset with wstream := plan.flatMap Field.packet } }) hplan
    resetMeetsTheInvariant.2 rfl rfl
  obtain ⟨t, ht, htru, hsink⟩ := exec_finish_written hvok
  have hempty : Writer.written { Writer.reset with wstream := plan.flatMap Field.packet } = [] := rfl
  rw [hwritten, hempty, List.nil_append] at hsink
  have hbytes : t.wu.sink.length < 2 ^ 64 := by
    have := congrArg List.length hsink
    rw [bytesBits_length, List.length_append, List.length_replicate] at this
    omega
  obtain ⟨u, hu, hresponses, hitems⟩ := execAll_readCommands (s := { t with ru := Reader.resetOn t.wu.sink t.ru }) hplan
    (Reader.resetOn_ok _ _) (Reader.resetOn_streamBits hbytes _ hsink)
  have hru : t.ru = Reader.reset := htru.trans hvru
  refine ⟨t, u, ?_, hsink, hu, ?_, ?_⟩
  · rw [execAll_append hv, execAll_cons ht, execAll]
  · rw [hresponses]
    show t.ru.responses ++ _ = _
    rw [hru]
    rfl
  · rw [hitems]
    show t.ru.rstream ++ _ = _
    rw [hru]
    rfl

end Sys2Proof.Machine
